-- ==== Sys2Proof/Word.lean ====
section
/-!
DEFINITION. The word types of the machine and their two readings (00_scope.md R11, R12).
-/

namespace Sys2Proof

/-- A 32-bit pattern: a register value, a memory word, an instruction word or a pc (R12). -/
abbrev Word := BitVec 32

/-- One byte of the model's byte view of a memory array (20_memory.md R57). -/
abbrev Byte := BitVec 8

/-- A register index, as the 5-bit fields `rs`, `rt`, `rd` hold it (R24, R71). -/
abbrev RegIx := BitVec 5

/-- The 5-bit shift amount field `instr[10:6]` (R71). -/
abbrev Shamt := BitVec 5

/-- A 6-bit selector: an opcode or a funct (R71). -/
abbrev Sel := BitVec 6

/-- The 16-bit immediate field `instr[15:0]` (R71). -/
abbrev Imm16 := BitVec 16

/-- The 26-bit jump field `instr[25:0]` (R71). -/
abbrev Addr26 := BitVec 26

/-- The unsigned reading of a pattern (R12). -/
abbrev u32 (v : Word) : Nat := v.toNat

/-- The two's-complement reading of a pattern (R12). -/
abbrev s32 (v : Word) : Int := v.toInt

end Sys2Proof
end

