-- ==== Sys2Proof/Config.lean ====
section
/-!
DEFINITION. The parameters of the machine (00_scope.md R9), at the spec's default values, and the type of the
parameter OPCODE_MAP. They are fixed for the machine; the step never changes them. The machine has no free value
inside a step (70_reset_and_hazards.md R245), so no constant here is left without a body; the two texts the host reports
with a step, whose form the spec does not give, are free constants in Machine/Run.lean.
-/

namespace Sys2Proof

/-- IMEM_WORDS: the capacity of instruction memory in words, default 128 (R9, D14). Statements name it, never the
number (DESIGN CHOICE: the parameter stands at its default; log 6). -/
def Config.imemWords : Nat := 128

/-- DMEM_BYTES: the capacity of data memory in bytes, default 512 (R9, D14; log 6). -/
def Config.dmemBytes : Nat := 512

/-- RUN_CAP: the number of running steps after which the host's `run` stops with an error (R9, R242). -/
def Config.runCap : Nat := 1000000

/-- The two byte orders a byte view of a word can have. The spec fixes none, because no program can observe one
(R57, D6). -/
inductive ByteOrder where
  /-- The most significant byte lies at the lowest address. -/
  | big
  /-- The least significant byte lies at the lowest address. -/
  | little
  deriving DecidableEq, Repr

/-- The byte order of the model's byte view (DESIGN CHOICE, safe: no word access depends on it; log 2). -/
def Config.byteOrder : ByteOrder := .big

/-- The parameter OPCODE_MAP (R9, R78): the funct of each R-type instruction and the opcode of each I-type and
J-type instruction. Its default value is `defaultOpcodeMap` in Decode.lean. -/
structure OpcodeMap where
  fnAdd  : Sel
  fnSub  : Sel
  fnAnd  : Sel
  fnOr   : Sel
  fnSlt  : Sel
  fnSll  : Sel
  fnSrl  : Sel
  fnJr   : Sel
  opAddi : Sel
  opLw   : Sel
  opSw   : Sel
  opBeq  : Sel
  opBne  : Sel
  opJ    : Sel
  opJal  : Sel
  deriving DecidableEq, Repr

end Sys2Proof
end

