-- ==== Sys2Proof/Syntax.lean ====
section
/-!
DEFINITION. The fifteen instructions (00_scope.md R2), one constructor per row of opcode_table.json. The operands
stand in the order of the assembler syntax (30_encoding.md R88). A field that an instruction does not name is no
part of the instruction (R80).
-/

namespace Sys2Proof

/-- An instruction with its operands. -/
inductive Instr where
  /-- `add rd, rs, rt` (R131). -/
  | add (rd rs rt : RegIx)
  /-- `sub rd, rs, rt` (R132). -/
  | sub (rd rs rt : RegIx)
  /-- `and rd, rs, rt` (R133). -/
  | and (rd rs rt : RegIx)
  /-- `or rd, rs, rt` (R134). -/
  | or (rd rs rt : RegIx)
  /-- `slt rd, rs, rt` (R135). -/
  | slt (rd rs rt : RegIx)
  /-- `sll rd, rt, shamt` (R136). -/
  | sll (rd rt : RegIx) (shamt : Shamt)
  /-- `srl rd, rt, shamt` (R137). -/
  | srl (rd rt : RegIx) (shamt : Shamt)
  /-- `jr rs` (R188). -/
  | jr (rs : RegIx)
  /-- `addi rt, rs, imm` (R150). -/
  | addi (rt rs : RegIx) (imm : Imm16)
  /-- `lw rt, offset(rs)` (R161). -/
  | lw (rt rs : RegIx) (imm : Imm16)
  /-- `sw rt, offset(rs)` (R162). -/
  | sw (rt rs : RegIx) (imm : Imm16)
  /-- `beq rs, rt, offset` (R184). -/
  | beq (rs rt : RegIx) (imm : Imm16)
  /-- `bne rs, rt, offset` (R185). -/
  | bne (rs rt : RegIx) (imm : Imm16)
  /-- `j target` (R186). -/
  | j (addr : Addr26)
  /-- `jal target` (R187). -/
  | jal (addr : Addr26)
  deriving DecidableEq, Repr

end Sys2Proof
end

