-- ==== Sys2Proof/WellFormed.lean ====
section
/-!
DEFINITION. What the types of Syntax.lean and Config.lean do not check by themselves: the one instruction the
toolchain's encoding cannot express, and the conditions on a value of the parameter OPCODE_MAP. Register indices,
shift amounts, immediates and jump fields fit their fields by their types (R24, R71).
-/

namespace Sys2Proof

/-- An instruction is well formed when the word the toolchain writes for it (30_encoding.md R89 to R91) executes.
The only one that is not is `sll $zero, $zero, 0`: its word is the all-zero halt sentinel, which is never executed
(R82, R95). -/
def Instr.wellFormed : Instr → Bool
  | .add _ _ _ => true
  | .sub _ _ _ => true
  | .and _ _ _ => true
  | .or _ _ _ => true
  | .slt _ _ _ => true
  | .sll rd rt shamt => !(rd == 0#5 && rt == 0#5 && shamt == 0#5)
  | .srl _ _ _ => true
  | .jr _ => true
  | .addi _ _ _ => true
  | .lw _ _ _ => true
  | .sw _ _ _ => true
  | .beq _ _ _ => true
  | .bne _ _ _ => true
  | .j _ => true
  | .jal _ => true

/-- The R-type selectors of a map, which share opcode 0 (R75). -/
def OpcodeMap.functs (m : OpcodeMap) : List Sel :=
  [m.fnAdd, m.fnSub, m.fnAnd, m.fnOr, m.fnSlt, m.fnSll, m.fnSrl, m.fnJr]

/-- The I-type selectors of a map. -/
def OpcodeMap.iOpcodes (m : OpcodeMap) : List Sel :=
  [m.opAddi, m.opLw, m.opSw, m.opBeq, m.opBne]

/-- A map keeps what the source states (R78, "two facts hold for every choice"; R75): no two R-type instructions
share a funct, no two I-type instructions share an opcode and none uses 0, 2 or 3, and `j` and `jal` are the two
opcodes 2 and 3. -/
def OpcodeMap.valid (m : OpcodeMap) : Bool :=
  decide m.functs.Nodup && decide m.iOpcodes.Nodup
    && m.iOpcodes.all (fun o => o != 0#6 && o != 2#6 && o != 3#6)
    && (m.opJ == 2#6 && m.opJal == 3#6 || m.opJ == 3#6 && m.opJal == 2#6)

end Sys2Proof
end

