-- ==== Sys2Proof/Decode.lean ====
section
/-!
DEFINITION. Fields, decoder and encoder (30_encoding.md R71 to R82), over a value of the parameter OPCODE_MAP, and
the default map. The decoder is total on 32-bit words: `none` is the verdict RESERVED (R79, R81).
-/

namespace Sys2Proof

/-- `opcode = instr[31:26]` (R71). -/
def fieldOpcode (w : Word) : Sel := w.extractLsb' 26 6
/-- `rs = instr[25:21]` (R71). -/
def fieldRs (w : Word) : RegIx := w.extractLsb' 21 5
/-- `rt = instr[20:16]` (R71). -/
def fieldRt (w : Word) : RegIx := w.extractLsb' 16 5
/-- `rd = instr[15:11]` (R71). -/
def fieldRd (w : Word) : RegIx := w.extractLsb' 11 5
/-- `shamt = instr[10:6]` (R71). -/
def fieldShamt (w : Word) : Shamt := w.extractLsb' 6 5
/-- `funct = instr[5:0]` (R71). -/
def fieldFunct (w : Word) : Sel := w.extractLsb' 0 6
/-- `imm = instr[15:0]` (R71). -/
def fieldImm (w : Word) : Imm16 := w.extractLsb' 0 16
/-- `addr = instr[25:0]` (R71). -/
def fieldAddr (w : Word) : Addr26 := w.extractLsb' 0 26

/-- The default OPCODE_MAP (R78). The spec takes every number but opcode 0 and the set of 2 and 3 from general
knowledge (UNVERIFIED: D3, G1; log 3). -/
def defaultOpcodeMap : OpcodeMap where
  fnAdd  := 0x20#6
  fnSub  := 0x22#6
  fnAnd  := 0x24#6
  fnOr   := 0x25#6
  fnSlt  := 0x2A#6
  fnSll  := 0x00#6
  fnSrl  := 0x02#6
  fnJr   := 0x08#6
  opAddi := 0x08#6
  opLw   := 0x23#6
  opSw   := 0x2B#6
  opBeq  := 0x04#6
  opBne  := 0x05#6
  opJ    := 0x02#6
  opJal  := 0x03#6

/-- The R-type handler, keyed by funct (R75, R79). -/
def decodeR (m : OpcodeMap) (w : Word) : Option Instr :=
  let f := fieldFunct w
  if f = m.fnAdd then some (.add (fieldRd w) (fieldRs w) (fieldRt w))
  else if f = m.fnSub then some (.sub (fieldRd w) (fieldRs w) (fieldRt w))
  else if f = m.fnAnd then some (.and (fieldRd w) (fieldRs w) (fieldRt w))
  else if f = m.fnOr then some (.or (fieldRd w) (fieldRs w) (fieldRt w))
  else if f = m.fnSlt then some (.slt (fieldRd w) (fieldRs w) (fieldRt w))
  else if f = m.fnSll then some (.sll (fieldRd w) (fieldRt w) (fieldShamt w))
  else if f = m.fnSrl then some (.srl (fieldRd w) (fieldRt w) (fieldShamt w))
  else if f = m.fnJr then some (.jr (fieldRs w))
  else none

/-- The J-type handler, for the opcodes 2 and 3 (R75, R79). -/
def decodeJ (m : OpcodeMap) (w : Word) : Option Instr :=
  if fieldOpcode w = m.opJ then some (.j (fieldAddr w))
  else if fieldOpcode w = m.opJal then some (.jal (fieldAddr w))
  else none

/-- The I-type handler, keyed by opcode (R75, R79). -/
def decodeI (m : OpcodeMap) (w : Word) : Option Instr :=
  let op := fieldOpcode w
  if op = m.opAddi then some (.addi (fieldRt w) (fieldRs w) (fieldImm w))
  else if op = m.opLw then some (.lw (fieldRt w) (fieldRs w) (fieldImm w))
  else if op = m.opSw then some (.sw (fieldRt w) (fieldRs w) (fieldImm w))
  else if op = m.opBeq then some (.beq (fieldRs w) (fieldRt w) (fieldImm w))
  else if op = m.opBne then some (.bne (fieldRs w) (fieldRt w) (fieldImm w))
  else none

/-- Dispatch by the opcode alone (R75), for a given map. -/
def decodeWith (m : OpcodeMap) (w : Word) : Option Instr :=
  if fieldOpcode w = 0#6 then decodeR m w
  else if fieldOpcode w = 2#6 ∨ fieldOpcode w = 3#6 then decodeJ m w
  else decodeI m w

/-- The decoder at the default map (R79). The all-zero word decodes as `sll $zero, $zero, 0` here and is never
executed: the step tests it before decode (R82, R105). -/
def decode (w : Word) : Option Instr := decodeWith defaultOpcodeMap w

/-- The instruction read from a word given as a number whose bits above `nbits` are 0. Every instruction is one
word (R70), so the row's number is the word. -/
def decodeTableWord (nbits w : Nat) : Option Instr := decode (BitVec.ofNat 32 (w % 2 ^ nbits))

/-- The R-type word (R72): `opcode = 0 ++ rs ++ rt ++ rd ++ shamt ++ funct`. -/
def wordR (rs rt rd : RegIx) (shamt : Shamt) (funct : Sel) : Word :=
  0#6 ++ rs ++ rt ++ rd ++ shamt ++ funct

/-- The I-type word (R73): `opcode ++ rs ++ rt ++ imm`. -/
def wordI (opcode : Sel) (rs rt : RegIx) (imm : Imm16) : Word :=
  opcode ++ rs ++ rt ++ imm

/-- The J-type word (R74): `opcode ++ addr`. -/
def wordJ (opcode : Sel) (addr : Addr26) : Word :=
  opcode ++ addr

/-- The word the toolchain writes for an instruction, with 0 in every field it does not name (R89, R90, R91), for
a given map. -/
def encodeWith (m : OpcodeMap) : Instr → Word
  | .add rd rs rt => wordR rs rt rd 0#5 m.fnAdd
  | .sub rd rs rt => wordR rs rt rd 0#5 m.fnSub
  | .and rd rs rt => wordR rs rt rd 0#5 m.fnAnd
  | .or rd rs rt => wordR rs rt rd 0#5 m.fnOr
  | .slt rd rs rt => wordR rs rt rd 0#5 m.fnSlt
  | .sll rd rt shamt => wordR 0#5 rt rd shamt m.fnSll
  | .srl rd rt shamt => wordR 0#5 rt rd shamt m.fnSrl
  | .jr rs => wordR rs 0#5 0#5 0#5 m.fnJr
  | .addi rt rs imm => wordI m.opAddi rs rt imm
  | .lw rt rs imm => wordI m.opLw rs rt imm
  | .sw rt rs imm => wordI m.opSw rs rt imm
  | .beq rs rt imm => wordI m.opBeq rs rt imm
  | .bne rs rt imm => wordI m.opBne rs rt imm
  | .j addr => wordJ m.opJ addr
  | .jal addr => wordJ m.opJal addr

/-- The encoder at the default map. -/
def encode (i : Instr) : Word := encodeWith defaultOpcodeMap i

/-- The mask column of R79 for the instruction's row: the bits that select it. -/
def rowMask : Instr → Word
  | .add _ _ _ => 0xFC00003F#32
  | .sub _ _ _ => 0xFC00003F#32
  | .and _ _ _ => 0xFC00003F#32
  | .or _ _ _ => 0xFC00003F#32
  | .slt _ _ _ => 0xFC00003F#32
  | .sll _ _ _ => 0xFC00003F#32
  | .srl _ _ _ => 0xFC00003F#32
  | .jr _ => 0xFC00003F#32
  | .addi _ _ _ => 0xFC000000#32
  | .lw _ _ _ => 0xFC000000#32
  | .sw _ _ _ => 0xFC000000#32
  | .beq _ _ _ => 0xFC000000#32
  | .bne _ _ _ => 0xFC000000#32
  | .j _ => 0xFC000000#32
  | .jal _ => 0xFC000000#32

/-- The match column of R79 for the instruction's row: the value of the selecting bits. -/
def rowMatch : Instr → Word
  | .add _ _ _ => 0x00000020#32
  | .sub _ _ _ => 0x00000022#32
  | .and _ _ _ => 0x00000024#32
  | .or _ _ _ => 0x00000025#32
  | .slt _ _ _ => 0x0000002A#32
  | .sll _ _ _ => 0x00000000#32
  | .srl _ _ _ => 0x00000002#32
  | .jr _ => 0x00000008#32
  | .addi _ _ _ => 0x20000000#32
  | .lw _ _ _ => 0x8C000000#32
  | .sw _ _ _ => 0xAC000000#32
  | .beq _ _ _ => 0x10000000#32
  | .bne _ _ _ => 0x14000000#32
  | .j _ => 0x08000000#32
  | .jal _ => 0x0C000000#32

/-- The bits of a word that are NOT ignored for the instruction: everything but the `x` bits of R79's encoding
column (R80). -/
def usedBits : Instr → Word
  | .add _ _ _ => 0xFFFFF83F#32
  | .sub _ _ _ => 0xFFFFF83F#32
  | .and _ _ _ => 0xFFFFF83F#32
  | .or _ _ _ => 0xFFFFF83F#32
  | .slt _ _ _ => 0xFFFFF83F#32
  | .sll _ _ _ => 0xFC1FFFFF#32
  | .srl _ _ _ => 0xFC1FFFFF#32
  | .jr _ => 0xFFE0003F#32
  | .addi _ _ _ => 0xFFFFFFFF#32
  | .lw _ _ _ => 0xFFFFFFFF#32
  | .sw _ _ _ => 0xFFFFFFFF#32
  | .beq _ _ _ => 0xFFFFFFFF#32
  | .bne _ _ _ => 0xFFFFFFFF#32
  | .j _ => 0xFFFFFFFF#32
  | .jal _ => 0xFFFFFFFF#32

end Sys2Proof
end

