-- ==== Sys2Proof/Machine/State.lean ====
section
/-!
DEFINITION. The state of the machine, `(x[0..31], pc, imem, dmem, loaded, prog_len)` (10_state.md), the reasons a
step can stop, and the state at power-on (10_state.md R39, 70_reset_and_hazards.md R230).
-/

namespace Sys2Proof.Machine

/-- One memory array, as the list of its (byte address, byte) cells in canonical form (`Memory.wf`): an address
that is not listed reads `Memory.unlisted`. A word at byte address `a` is the four bytes at `a` to `a + 3` in the
byte order `Config.byteOrder`, which no word access can observe (R57; log 2). -/
abbrev Memory := List Host.Cell

/-- What an address that is not listed reads as: the reset contents of both arrays (R39). -/
def Memory.unlisted : Byte := 0#8

/-- The canonical form: addresses strictly rise and no entry holds what an unlisted address reads as. -/
abbrev Memory.wf (m : Memory) : Prop :=
  m.Pairwise (fun c d => c.1 < d.1) ∧ ∀ c ∈ m, c.2 ≠ Memory.unlisted

/-- The whole architectural state (10_state.md R20 to R36). -/
structure State where
  /-- The register file `x[0]` to `x[31]` (R20); read and written only through `readReg` and `writeReg`. -/
  regs : Vector Word 32
  /-- The program counter, a byte address (R28). -/
  pc : Word
  /-- Instruction memory (R33). -/
  imem : Memory
  /-- Data memory (R34). -/
  dmem : Memory
  /-- Whether a program is installed (R35). -/
  loaded : Bool
  /-- `prog_len`: how many words the last `load` installed (R36). -/
  progLen : Nat
  deriving DecidableEq, Repr

/-- The fault kinds of the machine (60_exceptions.md R202). A fault ends the step in the Error state and changes
nothing (R201): the outcome carries no state, and the state after it is the one the step was applied to. Each is a
stop the spec itself describes, so stopping on it is faithful, and safe where the spec's own decision chose the
fault (D4, D7, D10, D11: toward unprovable). -/
inductive Fault where
  /-- Raised by any step while `loaded = 0` (R101). Safe: the spec states it. -/
  | notLoaded
  /-- Raised by the fetch at a `pc` below the program's end that is not a multiple of 4 (R103, D10). Safe. -/
  | pcMisaligned (pc : Word)
  /-- Raised by a fetched nonzero word that is no instruction (R81, R107, D4). Safe. -/
  | reservedInstruction (word : Word)
  /-- Raised by `lw` and `sw` at an effective address that is not a multiple of 4 (R52, R53). Safe. -/
  | memoryAlignmentError (ea : Int)
  /-- Raised by `lw` and `sw` at an aligned effective address outside data memory (R52, R53, D7). Safe. -/
  | memoryRangeError (ea : Int)
  /-- Raised by a taken `beq` or `bne` whose target is below 0 (R181, D11). Safe. -/
  | pcOutOfRange (target : Int)
  /-- Reported by the host's `run` at `RUN_CAP` running steps, never by a step (R242). Safe. -/
  | iterationLimitExceeded (steps : Nat)
  deriving DecidableEq, Repr

/-- Why the model gives an instruction no meaning. -/
inductive Refusal where
  /-- For an arm of `exec` without a meaning; no arm raises it, because every instruction has its meaning. Safe: a
  refused step is no step. -/
  | notModelled (mnemonic : String)
  deriving DecidableEq, Repr

/-- The state at power-on: registers, pc and both arrays 0, `loaded = 0`, `prog_len = 0` (R39, R230, R231). -/
def State.reset : State where
  regs := Vector.replicate 32 0#32
  pc := 0#32
  imem := []
  dmem := []
  loaded := false
  progLen := 0

end Sys2Proof.Machine
end

