-- ==== Sys2Proof/Machine/Ops.lean ====
section
/-!
DEFINITION. The named operations over registers, memory and the pc that every meaning uses (10_state.md,
20_memory.md), and `raise`, the one way a fault leaves a step (60_exceptions.md R201). The hardware has no trap
entry and no trap return (R200, R206), so `raise` is the whole of taking an exception.
-/

namespace Sys2Proof.Machine

/-- The outcome of executing an instruction. -/
abbrev StepOutcome := Host.Outcome State Fault Refusal

/-- `raise F(info)`: the step ends in the Error state and changes nothing (R201). -/
def raise (f : Fault) : StepOutcome := .fault f

/-! ### The register file (R20 to R26) -/

/-- A read port: register 0 reads 0 whatever its slot holds (R22), any other register its pattern (R25). -/
def readReg (s : State) (r : RegIx) : Word :=
  if r = 0#5 then 0#32 else s.regs[r.toNat]'r.isLt

/-- The write port: a write to register 0 is dropped (R23). -/
def writeReg (s : State) (r : RegIx) (v : Word) : State :=
  if r = 0#5 then s else { s with regs := s.regs.set r.toNat v r.isLt }

/-! ### The program counter (R28, R110) -/

/-- Auto-advance: the next sequential instruction (R110). -/
def advance (s : State) : State := { s with pc := s.pc + 4#32 }

/-- Explicit-PC: the pc takes the target (R110). -/
def jumpTo (s : State) (target : Word) : State := { s with pc := target }

/-- The end of an instruction that writes one register and auto-advances (R109, R110). -/
def writeBack (r : RegIx) (v : Word) (s : State) : StepOutcome := .next (advance (writeReg s r v))

/-! ### One memory array -/

/-- The byte at an address; an address with no entry reads `Memory.unlisted`. -/
def memGet : Memory → Nat → Byte
  | [], _ => Memory.unlisted
  | c :: m, a => if c.1 = a then c.2 else memGet m a

/-- Puts an entry before the first entry at a higher address. -/
def memInsert (a : Nat) (b : Byte) : Memory → Memory
  | [] => [(a, b)]
  | c :: m => if a < c.1 then (a, b) :: c :: m else c :: memInsert a b m

/-- Writes one byte and keeps the canonical form: the old entry goes, and a byte an unlisted address reads as gets no
new one. -/
def memSet (m : Memory) (a : Nat) (b : Byte) : Memory :=
  let rest := m.filter (fun c => c.1 != a)
  if b = Memory.unlisted then rest else memInsert a b rest

/-- The four bytes of a word from the lowest address up, in a byte order. -/
def wordBytes (o : ByteOrder) (v : Word) : Byte × Byte × Byte × Byte :=
  match o with
  | .big => (v.extractLsb' 24 8, v.extractLsb' 16 8, v.extractLsb' 8 8, v.extractLsb' 0 8)
  | .little => (v.extractLsb' 0 8, v.extractLsb' 8 8, v.extractLsb' 16 8, v.extractLsb' 24 8)

/-- The word of four bytes given from the lowest address up, in a byte order. -/
def bytesWord (o : ByteOrder) (b0 b1 b2 b3 : Byte) : Word :=
  match o with
  | .big => b0 ++ b1 ++ b2 ++ b3
  | .little => b3 ++ b2 ++ b1 ++ b0

/-- The word at a byte address, in a byte order. -/
def readWordIn (o : ByteOrder) (m : Memory) (a : Nat) : Word :=
  bytesWord o (memGet m a) (memGet m (a + 1)) (memGet m (a + 2)) (memGet m (a + 3))

/-- Writes the word at a byte address, in a byte order. -/
def writeWordIn (o : ByteOrder) (m : Memory) (a : Nat) (v : Word) : Memory :=
  let b := wordBytes o v
  memSet (memSet (memSet (memSet m a b.1) (a + 1) b.2.1) (a + 2) b.2.2.1) (a + 3) b.2.2.2

/-- The word of an array at a byte address: the unit of storage (R51). -/
def readWord (m : Memory) (a : Nat) : Word := readWordIn Config.byteOrder m a

/-- Writes a word of an array. -/
def writeWord (m : Memory) (a : Nat) (v : Word) : Memory := writeWordIn Config.byteOrder m a v

/-! ### The data-memory ports (R52, R53) -/

/-- The checks of both ports on a mathematical integer address, alignment first (R52, R53, R54; log 4): the byte
address of the word, or the fault. -/
def dataAddress (ea : Int) : Except Fault Nat :=
  if ea % 4 ≠ 0 then .error (.memoryAlignmentError ea)
  else if ea < 0 ∨ (Config.dmemBytes : Int) ≤ ea then .error (.memoryRangeError ea)
  else .ok ea.toNat

/-- `MemRead(addr, 4)` (R52). -/
def memRead (m : Memory) (ea : Int) : Except Fault Word :=
  match dataAddress ea with
  | .error f => .error f
  | .ok a => .ok (readWord m a)

/-- `MemWrite(addr, 4, v)` (R53): the array after the write. -/
def memWrite (m : Memory) (ea : Int) (v : Word) : Except Fault Memory :=
  match dataAddress ea with
  | .error f => .error f
  | .ok a => .ok (writeWord m a v)

/-! ### The instruction-memory read port (R55) -/

/-- `IFetch(pc)`: the word of index `pc / 4`, and 0 beyond capacity; it never faults (R55). -/
def iFetch (m : Memory) (pc : Word) : Word :=
  if pc.toNat / 4 < Config.imemWords then readWord m (4 * (pc.toNat / 4)) else 0#32

end Sys2Proof.Machine
end

