-- ==== Sys2Proof/Machine/Operands.lean ====
section
/-!
DEFINITION. The operand forms: immediates, addresses and targets (30_encoding.md R76; 43_load_store.md R160;
44_control_transfer.md R180, R182, R187).
-/

namespace Sys2Proof.Machine

/-- `sext_32(imm)`: the sign-extended 16-bit immediate (R13, R76). -/
def sext32 (imm : Imm16) : Word := imm.signExtend 32

/-- `zext_32(shamt)` as a number from 0 to 31 (R76). -/
def shiftAmount (shamt : Shamt) : Nat := shamt.toNat

/-- The effective address of `lw` and `sw`, a mathematical integer that is not reduced modulo 2^32 (R160). -/
def effectiveAddress (base : Word) (imm : Imm16) : Int := (u32 base : Int) + s32 (sext32 imm)

/-- The branch target, a mathematical integer: relative to the instruction after the branch, in words (R180). -/
def branchTarget (pc : Word) (imm : Imm16) : Int := (u32 pc : Int) + 4 + s32 (sext32 imm) * 4

/-- The jump target: the top four bits of the jump's own pc, then the field shifted left by 2 (R182). -/
def jumpTarget (pc : Word) (addr : Addr26) : Word :=
  (pc &&& 0xF0000000#32) ||| (addr.setWidth 32 <<< 2)

/-- The return address of `jal`: the byte address after it (R187). -/
def linkAddress (pc : Word) : Word := pc + 4#32

/-- The link register, `$ra` (R21, R187). -/
def linkReg : RegIx := 31#5

end Sys2Proof.Machine
end

