-- ==== Sys2Proof/Machine/Flags.lean ====
section
/-!
DEFINITION. The hardware has no flags and no condition codes (10_state.md R30): an instruction uses the result of
its comparison directly. The two comparisons it makes stand here (40_datapath_cycle.md R114).
-/

namespace Sys2Proof.Machine

/-- The equality comparator of `beq` and `bne`, on bit patterns (R113, R114). -/
def equal (a b : Word) : Bool := a == b

/-- The signed comparison of `slt` (R114, R135). -/
def lessSigned (a b : Word) : Bool := decide (s32 a < s32 b)

end Sys2Proof.Machine
end

