-- ==== Sys2Proof/Machine/Alu.lean ====
section
/-!
DEFINITION. The functions of the ALU and its shifter on 32-bit patterns (40_datapath_cycle.md R114;
41_alu_register.md R130). Addition and subtraction wrap; there is no overflow trap and no carry out.
-/

namespace Sys2Proof.Machine

/-- `ADD`: `(a + b) mod 2^32`. -/
def aluAdd (a b : Word) : Word := a + b

/-- `SUB`: `(a - b) mod 2^32`. -/
def aluSub (a b : Word) : Word := a - b

/-- `AND`: bitwise. -/
def aluAnd (a b : Word) : Word := a &&& b

/-- `OR`: bitwise. -/
def aluOr (a b : Word) : Word := a ||| b

/-- `SLT`: the 32-bit value 1 if `s32(a) < s32(b)`, else 0. -/
def aluSlt (a b : Word) : Word := if lessSigned a b then 1#32 else 0#32

/-- `SLL`: bits shifted past bit 31 are lost, zeros come in at bit 0. -/
def aluSll (b : Word) (shamt : Shamt) : Word := b <<< shiftAmount shamt

/-- `SRL`: logical, zeros come in at bit 31. -/
def aluSrl (b : Word) (shamt : Shamt) : Word := b >>> shiftAmount shamt

end Sys2Proof.Machine
end

