-- ==== Sys2Proof/Machine/AluImmediate.lean ====
section
/-!
DEFINITION. The immediate ALU instruction (42_alu_immediate.md).
-/

namespace Sys2Proof.Machine

/-- `addi rt, rs, imm` (R150): no overflow trap. -/
def execAddi (rt rs : RegIx) (imm : Imm16) (s : State) : StepOutcome :=
  writeBack rt (aluAdd (readReg s rs) (sext32 imm)) s

end Sys2Proof.Machine
end

