-- ==== Sys2Proof/Machine/AluRegister.lean ====
section
/-!
DEFINITION. The register-register ALU and shift instructions (41_alu_register.md). Each reads its operands before the
write (R108), writes `x[rd]`, raises nothing and auto-advances.
-/

namespace Sys2Proof.Machine

/-- `add rd, rs, rt` (R131). -/
def execAdd (rd rs rt : RegIx) (s : State) : StepOutcome :=
  writeBack rd (aluAdd (readReg s rs) (readReg s rt)) s

/-- `sub rd, rs, rt` (R132). -/
def execSub (rd rs rt : RegIx) (s : State) : StepOutcome :=
  writeBack rd (aluSub (readReg s rs) (readReg s rt)) s

/-- `and rd, rs, rt` (R133). -/
def execAnd (rd rs rt : RegIx) (s : State) : StepOutcome :=
  writeBack rd (aluAnd (readReg s rs) (readReg s rt)) s

/-- `or rd, rs, rt` (R134). -/
def execOr (rd rs rt : RegIx) (s : State) : StepOutcome :=
  writeBack rd (aluOr (readReg s rs) (readReg s rt)) s

/-- `slt rd, rs, rt` (R135). -/
def execSlt (rd rs rt : RegIx) (s : State) : StepOutcome :=
  writeBack rd (aluSlt (readReg s rs) (readReg s rt)) s

/-- `sll rd, rt, shamt` (R136). -/
def execSll (rd rt : RegIx) (shamt : Shamt) (s : State) : StepOutcome :=
  writeBack rd (aluSll (readReg s rt) shamt) s

/-- `srl rd, rt, shamt` (R137). -/
def execSrl (rd rt : RegIx) (shamt : Shamt) (s : State) : StepOutcome :=
  writeBack rd (aluSrl (readReg s rt) shamt) s

end Sys2Proof.Machine
end

