-- ==== Sys2Proof/Machine/Control.lean ====
section
/-!
DEFINITION. Branches, jumps and `jr` (44_control_transfer.md). There is no delay slot (R183).
-/

namespace Sys2Proof.Machine

/-- The end of a branch: not taken, it auto-advances; taken, the pc takes the target, and a target below 0 raises
`PCOutOfRange` (R180, R181). A target is below 2^32 at every pc that can execute (R181); at a pc no run reaches it is
taken modulo 2^32 (DESIGN CHOICE; log 9). -/
def branchWhen (taken : Bool) (imm : Imm16) (s : State) : StepOutcome :=
  if taken then
    if branchTarget s.pc imm < 0 then raise (.pcOutOfRange (branchTarget s.pc imm))
    else .next (jumpTo s (BitVec.ofInt 32 (branchTarget s.pc imm)))
  else .next (advance s)

/-- `beq rs, rt, offset` (R184). -/
def execBeq (rs rt : RegIx) (imm : Imm16) (s : State) : StepOutcome :=
  branchWhen (equal (readReg s rs) (readReg s rt)) imm s

/-- `bne rs, rt, offset` (R185). -/
def execBne (rs rt : RegIx) (imm : Imm16) (s : State) : StepOutcome :=
  branchWhen (!equal (readReg s rs) (readReg s rt)) imm s

/-- `j target` (R186). -/
def execJ (addr : Addr26) (s : State) : StepOutcome :=
  .next (jumpTo s (jumpTarget s.pc addr))

/-- `jal target` (R187): the link register takes the byte address after the `jal`. -/
def execJal (addr : Addr26) (s : State) : StepOutcome :=
  .next (jumpTo (writeReg s linkReg (linkAddress s.pc)) (jumpTarget s.pc addr))

/-- `jr rs` (R188): the full pattern, with no check at this step. -/
def execJr (rs : RegIx) (s : State) : StepOutcome :=
  .next (jumpTo s (readReg s rs))

end Sys2Proof.Machine
end

