-- ==== Sys2Proof/Machine/LoadStore.lean ====
section
/-!
DEFINITION. The load/store unit (43_load_store.md). On a fault nothing is written and the pc stays (R109).
-/

namespace Sys2Proof.Machine

/-- `lw rt, offset(rs)` (R161): the checks run even when `rt` is register 0. -/
def execLw (rt rs : RegIx) (imm : Imm16) (s : State) : StepOutcome :=
  match memRead s.dmem (effectiveAddress (readReg s rs) imm) with
  | .error f => raise f
  | .ok v => writeBack rt v s

/-- `sw rt, offset(rs)` (R162): only data memory is written (R65). -/
def execSw (rt rs : RegIx) (imm : Imm16) (s : State) : StepOutcome :=
  match memWrite s.dmem (effectiveAddress (readReg s rs) imm) (readReg s rt) with
  | .error f => raise f
  | .ok m => .next (advance { s with dmem := m })

end Sys2Proof.Machine
end

