-- ==== Sys2Proof/Machine/Fetch.lean ====
section
/-!
DEFINITION. The front of a step: the checks that stop it, fetch and decode, in the spec's order
(40_datapath_cycle.md R100 to R107; 60_exceptions.md R203), what a stopped step answers, and how an instruction word
is placed where the next step fetches.
-/

namespace Sys2Proof.Machine

/-- What the front of a step finds. -/
inductive Front where
  /-- The step ends in the Error state. -/
  | error (f : Fault)
  /-- The pc is at or past the end of the program (R102). -/
  | completed
  /-- The fetched word is the halt sentinel (R105). -/
  | halted
  /-- The fetched word and the instruction it is. -/
  | execute (word : Word) (i : Instr)
  deriving DecidableEq, Repr

/-- Dispatch of a fetched word: the zero test comes before decode (R82, R105, R107). -/
def dispatchWord (w : Word) : Front :=
  if w = 0#32 then .halted
  else match decode w with
    | none => .error (.reservedInstruction w)
    | some i => .execute w i

/-- The front of a step, each check in the order of R100 and R203. -/
def front (s : State) : Front :=
  if s.loaded = false then .error .notLoaded
  else if s.progLen * 4 ≤ u32 s.pc then .completed
  else if u32 s.pc % 4 ≠ 0 then .error (.pcMisaligned s.pc)
  else dispatchWord (iFetch s.imem s.pc)

/-- A step that finds the program completed changes nothing and is no fault (R102, R203): the next state is the same
state (DESIGN CHOICE; log 1). -/
def completedOutcome (s : State) : StepOutcome := .next s

/-- A step that fetches the halt sentinel changes nothing and is no fault (R105, R203): the next state is the same
state (DESIGN CHOICE; log 1). -/
def haltedOutcome (s : State) : StepOutcome := .next s

/-- The state in which the next step fetches the word `w`: a program is loaded and reaches past the pc, and the word
stands at the pc. A pc from which no word can be fetched (misaligned, or past instruction memory) becomes 0. -/
def placeWord (s : State) (w : Word) : State :=
  let pc := if u32 s.pc % 4 = 0 ∧ u32 s.pc / 4 < Config.imemWords then s.pc else 0#32
  { s with
    pc := pc
    imem := writeWord s.imem (u32 pc) w
    loaded := true
    progLen := max s.progLen (u32 pc / 4 + 1) }

end Sys2Proof.Machine
end

