-- ==== Sys2Proof/Machine/Step.lean ====
section
/-!
DEFINITION. One step of the datapath (40_datapath_cycle.md R100): the front of the step, then the instruction.
-/

namespace Sys2Proof.Machine

/-- One fetch-decode-execute-advance cycle (R100). The statuses Completed and Halted are no faults and change nothing
(R102, R105, R112); `stepResult` in Machine/Run.lean tells them from Running. -/
def step (s : State) : Host.Outcome State Fault Refusal :=
  match front s with
  | .error f => raise f
  | .completed => completedOutcome s
  | .halted => haltedOutcome s
  | .execute _ i => exec i s

/-- `s` with the instruction word `w` (its bits above `nbits` zero) where the next step fetches. A program comes to
run by the host's `load` (70_reset_and_hazards.md R235); this stands for that load (log 10). -/
def State.withFetchWord (s : State) (nbits w : Nat) : State :=
  placeWord s (BitVec.ofNat 32 (w % 2 ^ nbits))

end Sys2Proof.Machine
end

