-- ==== Sys2Proof/Machine/Datapath.lean ====
section
/-!
DEFINITION. The second view of execution: the units, multiplexers and control signals of the single-cycle datapath
(40_datapath_cycle.md R108 to R110, R113 to R115). The instruction rules govern where the two views differ (R115); the
signals' names are the spec's own and cannot be observed (D19). `exec` does not use this file.
-/

namespace Sys2Proof.Machine

/-- RegDst: which index the write port takes. -/
inductive RegDst where
  | rd | rt | ra
  deriving DecidableEq, Repr

/-- ALUSrcB: the second ALU operand. -/
inductive AluSrcB where
  | regRt | sextImm
  deriving DecidableEq, Repr

/-- ALUOp, with the equality comparator and the address adder that R115's column names. -/
inductive AluOp where
  | add | sub | and | or | slt | sll | srl | eq | addressAdder
  deriving DecidableEq, Repr

/-- WbSel: what the write-back multiplexer selects. -/
inductive WbSel where
  | alu | mem | pcPlus4
  deriving DecidableEq, Repr

/-- PCSel: what the pc multiplexer selects. -/
inductive PcSel where
  | pc4 | branchIfEq | branchIfNotEq | jump | reg
  deriving DecidableEq, Repr

/-- One value of every control wire. -/
structure ControlWires where
  regWrite : Bool
  regDst   : RegDst
  aluSrcB  : AluSrcB
  aluOp    : AluOp
  memRead  : Bool
  memWrite : Bool
  wbSel    : WbSel
  pcSel    : PcSel
  deriving DecidableEq, Repr

/-- One row of R115's table; `none` is its `-`, don't care. -/
structure ControlRow where
  regWrite : Bool
  regDst   : Option RegDst
  aluSrcB  : Option AluSrcB
  aluOp    : Option AluOp
  memRead  : Bool
  memWrite : Bool
  wbSel    : Option WbSel
  pcSel    : PcSel
  deriving DecidableEq, Repr

/-- The row that the register-register ALU and shift instructions share but for ALUOp (R115). -/
def rowAlu (op : AluOp) : ControlRow :=
  ⟨true, some .rd, some .regRt, some op, false, false, some .alu, .pc4⟩

/-- The control table (R115), a row for each instruction. -/
def controlRow : Instr → ControlRow
  | .add _ _ _ => rowAlu .add
  | .sub _ _ _ => rowAlu .sub
  | .and _ _ _ => rowAlu .and
  | .or _ _ _ => rowAlu .or
  | .slt _ _ _ => rowAlu .slt
  | .sll _ _ _ => rowAlu .sll
  | .srl _ _ _ => rowAlu .srl
  | .jr _ => ⟨false, none, none, none, false, false, none, .reg⟩
  | .addi _ _ _ => ⟨true, some .rt, some .sextImm, some .add, false, false, some .alu, .pc4⟩
  | .lw _ _ _ => ⟨true, some .rt, some .sextImm, some .addressAdder, true, false, some .mem, .pc4⟩
  | .sw _ _ _ => ⟨false, none, some .sextImm, some .addressAdder, false, true, none, .pc4⟩
  | .beq _ _ _ => ⟨false, none, some .regRt, some .eq, false, false, none, .branchIfEq⟩
  | .bne _ _ _ => ⟨false, none, some .regRt, some .eq, false, false, none, .branchIfNotEq⟩
  | .j _ => ⟨false, none, none, none, false, false, none, .jump⟩
  | .jal _ => ⟨true, some .ra, none, none, false, false, some .pcPlus4, .jump⟩

/-- The wires carry what the row says, and anything where the row says don't care. -/
def ControlRow.drives (r : ControlRow) (k : ControlWires) : Bool :=
  r.regWrite == k.regWrite && r.regDst.all (· == k.regDst) && r.aluSrcB.all (· == k.aluSrcB)
    && r.aluOp.all (· == k.aluOp) && r.memRead == k.memRead && r.memWrite == k.memWrite
    && r.wbSel.all (· == k.wbSel) && r.pcSel == k.pcSel

/-- The ALU's output (R114). The comparator and the address adder have outputs of their own; the ALU's output is then
selected by nothing. -/
def aluUnit (op : AluOp) (a b : Word) (shamt : Shamt) : Word :=
  match op with
  | .add => aluAdd a b
  | .sub => aluSub a b
  | .and => aluAnd a b
  | .or => aluOr a b
  | .slt => aluSlt a b
  | .sll => aluSll b shamt
  | .srl => aluSrl b shamt
  | .eq => 0#32
  | .addressAdder => 0#32

/-- The data memory's two ports in one step: the word read, and the array after the step (R109, R113). -/
def memoryUnit (k : ControlWires) (m : Memory) (ea : Int) (v : Word) : Except Fault (Word × Memory) :=
  if k.memRead then
    match memRead m ea with
    | .error f => .error f
    | .ok r => .ok (r, m)
  else if k.memWrite then
    match memWrite m ea v with
    | .error f => .error f
    | .ok m' => .ok (0#32, m')
  else .ok (0#32, m)

/-- A selected branch target; one below 0 is the fault of R181. -/
def branchUnit (pc : Word) (imm : Imm16) : Except Fault Word :=
  if branchTarget pc imm < 0 then .error (.pcOutOfRange (branchTarget pc imm))
  else .ok (BitVec.ofInt 32 (branchTarget pc imm))

/-- The pc multiplexer (R110). -/
def pcMux (k : ControlWires) (eq : Bool) (pc a : Word) (w : Word) : Except Fault Word :=
  match k.pcSel with
  | .pc4 => .ok (pc + 4#32)
  | .branchIfEq => if eq then branchUnit pc (fieldImm w) else .ok (pc + 4#32)
  | .branchIfNotEq => if eq then .ok (pc + 4#32) else branchUnit pc (fieldImm w)
  | .jump => .ok (jumpTarget pc (fieldAddr w))
  | .reg => .ok a

/-- The write-back multiplexer (R113). -/
def wbMux (k : ControlWires) (alu mem pc : Word) : Word :=
  match k.wbSel with
  | .alu => alu
  | .mem => mem
  | .pcPlus4 => linkAddress pc

/-- The write port's index (R115). -/
def dstMux (k : ControlWires) (w : Word) : RegIx :=
  match k.regDst with
  | .rd => fieldRd w
  | .rt => fieldRt w
  | .ra => linkReg

/-- The datapath in one cycle: both read ports, the ALU, the memory, the multiplexers, and the commit of at most one
register write, at most one memory write and the pc, or a fault and no change (R108, R109, R110). -/
def datapathExec (k : ControlWires) (w : Word) (s : State) : StepOutcome :=
  let a := readReg s (fieldRs w)
  let b := readReg s (fieldRt w)
  let srcB := match k.aluSrcB with
    | .regRt => b
    | .sextImm => sext32 (fieldImm w)
  match memoryUnit k s.dmem (effectiveAddress a (fieldImm w)) b with
  | .error f => raise f
  | .ok (r, m) =>
    match pcMux k (equal a srcB) s.pc a w with
    | .error f => raise f
    | .ok pc' =>
      let wb := wbMux k (aluUnit k.aluOp a srcB (fieldShamt w)) r s.pc
      let t := if k.regWrite then writeReg s (dstMux k w) wb else s
      .next { t with dmem := m, pc := pc' }

end Sys2Proof.Machine
end

