-- ==== Sys2Proof/Machine/Toolchain.lean ====
section
/-!
DEFINITION. The toolchain (30_encoding.md R85 to R97): source text to instructions and words, with the errors of R94,
and a refusal where the spec refuses the text (D23, D24) or no rule settles it (log 8). It is not part of the hardware
(00_scope.md R7); the host's `load` runs it. Text is a list of characters. Which error a source with several reports is
the model's choice (DESIGN CHOICE; log 12).
-/

namespace Sys2Proof.Machine

/-- A piece of source text. -/
abbrev Text := List Char

/-- The assembly errors (R94). -/
inductive AsmErrorKind where
  | syntaxError
  | invalidRegister
  | invalidImmediate
  | undefinedLabel
  | unknownInstruction
  /-- InvalidImmediate or UndefinedLabel: the source does not say which (95_test_vectors.md A-13). -/
  | immediateOrLabel
  /-- "Any other exception" of one instruction's assembly, such as a missing operand (R94). That an instruction text with
  no mnemonic at all is one of them is the model's choice (DESIGN CHOICE; log 12). -/
  | other
  deriving DecidableEq, Repr

/-- Why the model gives a source text no words. -/
inductive AsmRefusal where
  /-- A number that does not fit its field (D23). Safe: the text has no defined encoding. -/
  | numberOutOfField
  /-- Duplicate labels, a label that reads as a number, or a name in another case (D24). Safe. -/
  | ambiguousName
  /-- A form no rule settles (DESIGN CHOICE; log 8). Safe. -/
  | unsettledText
  deriving DecidableEq, Repr

/-- How the assembly of one line can stop. -/
inductive AsmStop where
  | error (k : AsmErrorKind)
  | refused (r : AsmRefusal)
  deriving DecidableEq, Repr

/-- An assembly error with the failing text and its line (R94). That the first line of the source is line 1 is the model's
choice (DESIGN CHOICE: R94 gives no base; log 12). -/
structure AsmError where
  kind : AsmErrorKind
  text : Text
  line : Nat
  deriving DecidableEq, Repr

/-! ### Lines and tokens (R85, R87) -/

/-- White space: the space, the tab, and the ASCII codes 11, 12 and 13 (DESIGN CHOICE: R85 names no set; log 13). -/
def isSpace (c : Char) : Bool := c == ' ' || c == '\t' || (11 ≤ c.toNat && c.toNat ≤ 13)

/-- The characters of a line without a colon (R87). -/
def isAllowed (c : Char) : Bool :=
  c.isAlphanum || c == '$' || c == ',' || c == '(' || c == ')' || c == '_' || c == '-' || c == ' '

/-- Splits at every character that satisfies `p`. -/
def splitAtP (p : Char → Bool) : Text → List Text
  | [] => [[]]
  | c :: cs =>
    match splitAtP p cs with
    | [] => [[c]]
    | l :: ls => if p c then [] :: l :: ls else (c :: l) :: ls

/-- Drops the white space at both ends. -/
def trim (t : Text) : Text := ((t.dropWhile isSpace).reverse.dropWhile isSpace).reverse

/-- The comment from `#` to the end of the line goes (R85). -/
def stripComment (t : Text) : Text := t.takeWhile (· != '#')

/-- Commas become spaces, then the text splits at white space (R85). -/
def tokens (t : Text) : List Text :=
  (splitAtP isSpace (t.map (fun c => if c == ',' then ' ' else c))).filter (fun l => !l.isEmpty)

/-- The lower-case form of a text. -/
def lower (t : Text) : Text := t.map Char.toLower

/-! ### Labels (R86) -/

/-- `[A-Za-z0-9_]+`. -/
def isLabelName (t : Text) : Bool := !t.isEmpty && t.all (fun c => c.isAlphanum || c == '_')

/-- A label table: names with their byte addresses. -/
abbrev Labels := List (Text × Nat)

/-- The byte address of a label. -/
def labelAddress (ls : Labels) (t : Text) : Option Nat := (ls.find? (fun l => l.1 == t)).map (·.2)

/-- Some label has this name in some case. -/
def labelInAnyCase (ls : Labels) (t : Text) : Bool := ls.any (fun l => lower l.1 == lower t)

/-- What pass 1 makes of a line. -/
inductive LineForm where
  | blank
  | instruction (text : Text)
  | label (name : Text) (text : Option Text)
  deriving DecidableEq, Repr

/-- Pass 1 on one line (R85, R86, R87). The label is everything before the first colon as it stands, so white space around
its name is a SyntaxError by R86, and a later colon is part of the instruction text (DESIGN CHOICE: R86 does not say which
colon, or whether the label is trimmed; log 13). The comment goes first, whatever it holds; the text kept of an instruction,
for its translation and for an error of pass 2, is without its label, its comment and its outer white space (DESIGN CHOICE:
R94 and R96 do not say; log 13). -/
def lineForm (raw : Text) : Except AsmStop LineForm :=
  let line := stripComment raw
  if line.all isSpace then .ok .blank
  else if line.contains ':' then
    let name := line.takeWhile (· != ':')
    let rest := line.drop (name.length + 1)
    if !isLabelName name then .error (.error .syntaxError)
    else if rest.all isSpace then .ok (.label name none)
    else .ok (.label name (some (trim rest)))
  else if line.all isAllowed then .ok (.instruction (trim line))
  else .error (.error .syntaxError)

/-- An instruction's text with its line number. -/
structure SourceInstr where
  text : Text
  line : Nat
  deriving DecidableEq, Repr

/-- The stop of a whole assembly: an error with its place, or a refusal. -/
inductive AssemblyStop where
  | error (e : AsmError)
  | refused (r : AsmRefusal)
  deriving DecidableEq, Repr

/-- Gives a stop its place. -/
def AsmStop.at (text : Text) (line : Nat) : AsmStop → AssemblyStop
  | .error k => .error ⟨k, text, line⟩
  | .refused r => .refused r

/-- Pass 1: the label table and the instructions in order. A label takes the byte address of the next instruction;
labels that differ at most in case are refused (D24). An error of this pass carries the whole line without its comment and
its outer white space, the label of a label line included (DESIGN CHOICE: R94 does not say; log 13). -/
def passOne : List Text → Nat → Labels → List SourceInstr → Except AssemblyStop (Labels × List SourceInstr)
  | [], _, ls, is => .ok (ls, is)
  | raw :: more, n, ls, is =>
    match lineForm raw with
    | .error e => .error (e.at (trim (stripComment raw)) n)
    | .ok .blank => passOne more (n + 1) ls is
    | .ok (.instruction t) => passOne more (n + 1) ls (is ++ [⟨t, n⟩])
    | .ok (.label name t) =>
      if labelInAnyCase ls name then .error (.refused .ambiguousName)
      else passOne more (n + 1) (ls ++ [(name, 4 * is.length)])
        (is ++ (t.map (fun t => (⟨t, n⟩ : SourceInstr))).toList)

/-! ### Operands (R92, R93) -/

/-- The canonical register names in index order (10_state.md R21). -/
def regNames : List Text :=
  ["$zero".toList, "$at".toList, "$v0".toList, "$v1".toList, "$a0".toList, "$a1".toList, "$a2".toList, "$a3".toList]
    ++ ["$t0".toList, "$t1".toList, "$t2".toList, "$t3".toList, "$t4".toList, "$t5".toList, "$t6".toList,
        "$t7".toList]
    ++ ["$s0".toList, "$s1".toList, "$s2".toList, "$s3".toList, "$s4".toList, "$s5".toList, "$s6".toList,
        "$s7".toList]
    ++ ["$t8".toList, "$t9".toList, "$k0".toList, "$k1".toList, "$gp".toList, "$sp".toList, "$fp".toList,
        "$ra".toList]

/-- The value of decimal digits. -/
def decimalValue (t : Text) : Nat := t.foldl (fun n c => 10 * n + (c.toNat - 48)) 0

/-- The value of one hexadecimal digit. -/
def hexDigitValue (c : Char) : Option Nat :=
  if c.isDigit then some (c.toNat - 48)
  else if 'a' ≤ c && c ≤ 'f' then some (c.toNat - 87)
  else if 'A' ≤ c && c ≤ 'F' then some (c.toNat - 55)
  else none

/-- The value of hexadecimal digits, at least one. -/
def hexValue (t : Text) : Option Nat :=
  if t.isEmpty then none
  else t.foldl (fun n c => n.bind (fun n => (hexDigitValue c).map (fun d => 16 * n + d))) (some 0)

/-- A nonempty text of decimal digits. -/
def isDecimal (t : Text) : Bool := !t.isEmpty && t.all Char.isDigit

/-- The number a token is: `0x` hex, or decimal with an optional leading `-` (R90, R93). -/
def numberOf : Text → Option Int
  | '0' :: 'x' :: h => (hexValue h).map Int.ofNat
  | '-' :: d => if isDecimal d then some (-(decimalValue d : Int)) else none
  | d => if isDecimal d then some (decimalValue d : Int) else none

/-- A number with a sign that no rule settles: signed hex, or decimal with a leading `+` (log 8). -/
def hasUnsettledSign : Text → Bool
  | '-' :: '0' :: 'x' :: h => (hexValue h).isSome
  | '+' :: '0' :: 'x' :: h => (hexValue h).isSome
  | '+' :: d => isDecimal d
  | _ => false

/-- A register operand (R92): a canonical name, or `$N` with N, in decimal digits, below 32. A name in another case is
refused (D24). -/
def registerOf (t : Text) : Except AsmStop RegIx :=
  match t with
  | '$' :: d =>
    if isDecimal d then
      if decimalValue d < 32 then .ok (BitVec.ofNat 5 (decimalValue d)) else .error (.error .invalidRegister)
    else match regNames.idxOf? t with
      | some n => .ok (BitVec.ofNat 5 n)
      | none =>
        if regNames.contains (lower t) then .error (.refused .ambiguousName)
        else .error (.error .invalidRegister)
  | _ => .error (.error .invalidRegister)

/-- An immediate operand: a number, or a label's byte address (R93). A token that reads as a number and as a label is
refused (D24 for a decimal number; log 8 for a hex one), and so is one that is a label only in another case (D24). -/
def immediateOf (ls : Labels) (t : Text) : Except AsmStop Int :=
  match numberOf t, labelAddress ls t with
  | some v, none => if labelInAnyCase ls t then .error (.refused .ambiguousName) else .ok v
  | some _, some _ => .error (.refused .ambiguousName)
  | none, some a => .ok a
  | none, none =>
    if hasUnsettledSign t then .error (.refused .unsettledText)
    else if labelInAnyCase ls t then .error (.refused .ambiguousName)
    else if isLabelName t then .error (.error .immediateOrLabel)
    else .error (.error .invalidImmediate)

/-- The 16-bit field of `addi`, `lw` and `sw` (R90); a value outside -32768 to 65535 is refused (D23). -/
def imm16Of (ls : Labels) (t : Text) : Except AsmStop Imm16 := do
  let v ← immediateOf ls t
  if -32768 ≤ v ∧ v ≤ 65535 then .ok (BitVec.ofInt 16 v) else .error (.refused .numberOutOfField)

/-- The shift amount (R76, R88, R93): an immediate from 0 to 31; any other is refused (R90, D23). -/
def shamtOf (ls : Labels) (t : Text) : Except AsmStop Shamt := do
  let v ← immediateOf ls t
  if 0 ≤ v ∧ v ≤ 31 then .ok (BitVec.ofInt 5 v) else .error (.refused .numberOutOfField)

/-- The byte address of a branch or jump label (R90, R91). A label made only of digits is refused (D24). -/
def targetOf (ls : Labels) (t : Text) : Except AsmStop Nat :=
  match labelAddress ls t with
  | some a => if isDecimal t then .error (.refused .ambiguousName) else .ok a
  | none => if labelInAnyCase ls t then .error (.refused .ambiguousName) else .error (.error .undefinedLabel)

/-- A memory operand `offset($reg)` (R85). That an error of the register is reported before one of the offset is the
model's choice (DESIGN CHOICE; log 12). -/
def memoryOperandOf (ls : Labels) (t : Text) : Except AsmStop (RegIx × Imm16) :=
  let off := t.takeWhile (· != '(')
  match t.drop off.length with
  | '(' :: rest =>
    if rest.getLast? == some ')' then do
      let r ← registerOf rest.dropLast
      let imm ← imm16Of ls off
      .ok (r, imm)
    else .error (.error .other)
  | _ => .error (.error .other)

/-- The word offset of a branch at byte address `pc`, truncated to 16 bits (R90). -/
def branchOffset (pc target : Nat) : Imm16 := BitVec.ofInt 16 (((target : Int) - ((pc : Int) + 4)) / 4)

/-- The jump field: the label's BYTE address in the low 26 bits, not shifted (R91, C2). -/
def jumpField (target : Nat) : Addr26 := BitVec.ofNat 26 target

/-! ### One instruction (R88) -/

/-- The stop for a wrong count of operands: too few fail (R94), too many are settled by no rule. -/
def wrongCount (have_ want : Nat) : AsmStop :=
  if have_ < want then .error .other else .refused .unsettledText

/-- `op rd, rs, rt`. -/
def threeRegs (mk : RegIx → RegIx → RegIx → Instr) : List Text → Except AsmStop Instr
  | [a, b, c] => do
    let rd ← registerOf a
    let rs ← registerOf b
    let rt ← registerOf c
    .ok (mk rd rs rt)
  | ops => .error (wrongCount ops.length 3)

/-- `op rd, rt, shamt`. -/
def shiftForm (ls : Labels) (mk : RegIx → RegIx → Shamt → Instr) : List Text → Except AsmStop Instr
  | [a, b, c] => do
    let rd ← registerOf a
    let rt ← registerOf b
    let h ← shamtOf ls c
    .ok (mk rd rt h)
  | ops => .error (wrongCount ops.length 3)

/-- `jr rs`. -/
def jrForm : List Text → Except AsmStop Instr
  | [a] => do
    let rs ← registerOf a
    .ok (.jr rs)
  | ops => .error (wrongCount ops.length 1)

/-- `addi rt, rs, imm`. -/
def addiForm (ls : Labels) : List Text → Except AsmStop Instr
  | [a, b, c] => do
    let rt ← registerOf a
    let rs ← registerOf b
    let imm ← imm16Of ls c
    .ok (.addi rt rs imm)
  | ops => .error (wrongCount ops.length 3)

/-- `op rt, offset(rs)`. -/
def memoryForm (ls : Labels) (mk : RegIx → RegIx → Imm16 → Instr) : List Text → Except AsmStop Instr
  | [a, b] => do
    let rt ← registerOf a
    let m ← memoryOperandOf ls b
    .ok (mk rt m.1 m.2)
  | ops => .error (wrongCount ops.length 2)

/-- `op rs, rt, label`, at byte address `pc`. -/
def branchForm (ls : Labels) (pc : Nat) (mk : RegIx → RegIx → Imm16 → Instr) : List Text → Except AsmStop Instr
  | [a, b, c] => do
    let rs ← registerOf a
    let rt ← registerOf b
    let t ← targetOf ls c
    .ok (mk rs rt (branchOffset pc t))
  | ops => .error (wrongCount ops.length 3)

/-- `op label`. -/
def jumpForm (ls : Labels) (mk : Addr26 → Instr) : List Text → Except AsmStop Instr
  | [a] => do
    let t ← targetOf ls a
    .ok (mk (jumpField t))
  | ops => .error (wrongCount ops.length 1)

/-- Pass 2 on one instruction at byte address `pc`: the syntax table (R88), mnemonics in any case (R85). A text of commas
only has no mnemonic and is the error `other`; of several errors the count of operands comes first, then the operands from
left to right (DESIGN CHOICE: R94 is silent on both; log 12). -/
def assembleOne (ls : Labels) (pc : Nat) (text : Text) : Except AsmStop Instr :=
  match tokens text with
  | [] => .error (.error .other)
  | m :: ops =>
    let m := lower m
    if m == "add".toList then threeRegs .add ops
    else if m == "sub".toList then threeRegs .sub ops
    else if m == "and".toList then threeRegs .and ops
    else if m == "or".toList then threeRegs .or ops
    else if m == "slt".toList then threeRegs .slt ops
    else if m == "sll".toList then shiftForm ls .sll ops
    else if m == "srl".toList then shiftForm ls .srl ops
    else if m == "jr".toList then jrForm ops
    else if m == "addi".toList then addiForm ls ops
    else if m == "lw".toList then memoryForm ls .lw ops
    else if m == "sw".toList then memoryForm ls .sw ops
    else if m == "beq".toList then branchForm ls pc .beq ops
    else if m == "bne".toList then branchForm ls pc .bne ops
    else if m == "j".toList then jumpForm ls .j ops
    else if m == "jal".toList then jumpForm ls .jal ops
    else .error (.error .unknownInstruction)

/-! ### The whole source -/

/-- Pass 2: each instruction with its text, from the instruction of index `k` on. -/
def passTwo (ls : Labels) : Nat → List SourceInstr → Except AssemblyStop (List (Text × Instr))
  | _, [] => .ok []
  | k, i :: more =>
    match assembleOne ls (4 * k) i.text with
    | .error e => .error (e.at i.text i.line)
    | .ok ins =>
      match passTwo ls (k + 1) more with
      | .error e => .error e
      | .ok rest => .ok ((i.text, ins) :: rest)

/-- An assembled program. -/
structure Assembly where
  labels : Labels
  lines  : List (Text × Instr)
  deriving DecidableEq, Repr

/-- The machine words of an assembled program (R89 to R91). -/
def Assembly.words (a : Assembly) : List Word := a.lines.map (fun l => encode l.2)

/-- The assembler (R85 to R94). It is a function of the source, so it is deterministic (R97). A line ends at the line
feed alone (DESIGN CHOICE; log 13). -/
def assemble (source : Text) : Except AssemblyStop Assembly :=
  match passOne (splitAtP (· == '\n') source) 1 [] [] with
  | .error e => .error e
  | .ok (ls, is) =>
    match passTwo ls 0 is with
    | .error e => .error e
    | .ok lines => .ok ⟨ls, lines⟩

/-! ### Translations (R96) -/

/-- The three formats (R72, R73, R74). -/
inductive Format where
  | r | i | j
  deriving DecidableEq, Repr

/-- The format of a word, by its opcode alone (R75). -/
def formatOf (w : Word) : Format :=
  if fieldOpcode w = 0#6 then .r else if fieldOpcode w = 2#6 ∨ fieldOpcode w = 3#6 then .j else .i

/-- The display record of one instruction (R96), its text as `lineForm` keeps it (log 13): a field the format lacks is `none`. The binary string is its groups of
6, 5, 5, 5, 5 and 6 bits, the hex string its 8 digits, most significant first. -/
structure Translation where
  text      : Text
  format    : Format
  opcode    : Sel
  rs        : Option RegIx
  rt        : Option RegIx
  rd        : Option RegIx
  shamt     : Option Shamt
  funct     : Option Sel
  immediate : Option Imm16
  address   : Option Addr26
  binary    : List (List Bool)
  hex       : List (BitVec 4)
  deriving DecidableEq, Repr

/-- The bits `hi` down to `hi - n + 1` of a word. -/
def bitsFrom (w : Word) (hi n : Nat) : List Bool := (List.range n).map (fun k => w.getLsbD (hi - k))

/-- The translation of a word (R96). -/
def translate (text : Text) (w : Word) : Translation :=
  let f := formatOf w
  { text := text
    format := f
    opcode := fieldOpcode w
    rs := if f = .j then none else some (fieldRs w)
    rt := if f = .j then none else some (fieldRt w)
    rd := if f = .r then some (fieldRd w) else none
    shamt := if f = .r then some (fieldShamt w) else none
    funct := if f = .r then some (fieldFunct w) else none
    immediate := if f = .i then some (fieldImm w) else none
    address := if f = .j then some (fieldAddr w) else none
    binary := [bitsFrom w 31 6, bitsFrom w 25 5, bitsFrom w 20 5, bitsFrom w 15 5, bitsFrom w 10 5, bitsFrom w 5 6]
    hex := (List.range 8).map (fun k => w.extractLsb' (4 * (7 - k)) 4) }

end Sys2Proof.Machine
end

