-- ==== Sys2Proof/Machine/Load.lean ====
section
/-!
DEFINITION. The host's `reset` and `load` (70_reset_and_hazards.md R230 to R239). The host acts only between steps
(R204), so neither is part of a step.
-/

namespace Sys2Proof.Machine

/-- The host's `reset`: registers, pc and both arrays become 0; `loaded` and `prog_len` stay (R231). -/
def hostReset (s : State) : State := { State.reset with loaded := s.loaded, progLen := s.progLen }

/-- Writes the words at the indices from `k` on and no other word (R236). -/
def installWords (m : Memory) (k : Nat) : List Word → Memory
  | [] => m
  | w :: ws => installWords (writeWord m (4 * k) w) (k + 1) ws

/-- A successful load of assembled words (R235 steps 1, 4 and 5). -/
def loadWords (ws : List Word) (s : State) : State :=
  let r := hostReset s
  { r with imem := installWords r.imem 0 ws, progLen := ws.length, loaded := true }

/-- Why a load fails (R237, R238). -/
inductive LoadError where
  /-- The assembly error (R94, R237). -/
  | assembly (e : AsmError)
  /-- The program is longer than instruction memory. R67, R238 and D15 say only that such a load fails; this kind and the
  word count it carries are the model's choice (DESIGN CHOICE; log 12). -/
  | programTooLong (words : Nat)
  deriving DecidableEq, Repr

/-- What a load answers. -/
inductive LoadResult where
  /-- The program is installed; the translations are the display text `load` returns. -/
  | installed (s : State) (translations : List Translation)
  /-- The load failed and the machine is not loaded. -/
  | failed (e : LoadError) (s : State)
  /-- The spec refuses the source text (D23, D24), or no rule settles it (log 8). Safe: no claim about such a load. -/
  | refused (r : AsmRefusal)
  deriving DecidableEq, Repr

/-- After a failed load `loaded = 0` and everything else is unspecified (R237, D16, U6): `after` is that unspecified
state, an argument that nothing constrains, and a statement holds for every value of it (log 5). -/
def failedLoad (after : State) : State := { after with loaded := false }

/-- The host's `load(source)` (R235, R237, R238). -/
def load (source : Text) (after s : State) : LoadResult :=
  match assemble source with
  | .error (.refused r) => .refused r
  | .error (.error e) => .failed (.assembly e) (failedLoad after)
  | .ok a =>
    if a.words.length ≤ Config.imemWords then
      .installed (loadWords a.words s) (a.lines.map (fun l => translate l.1 (encode l.2)))
    else .failed (.programTooLong a.words.length) (failedLoad after)

/-! ### The register file's calls by index (R24) -/

/-- The invalid-register error of `read`, `write` and `name_of` (R24). -/
inductive InvalidRegister where
  | invalidRegister (n : Int)
  deriving DecidableEq, Repr

/-- A register index given from outside the datapath must satisfy `0 ≤ n < 32` (R24). -/
def registerIndex (n : Int) : Except InvalidRegister RegIx :=
  if 0 ≤ n ∧ n < 32 then .ok (BitVec.ofInt 5 n) else .error (.invalidRegister n)

/-- `read(n)` (R24, R25). -/
def readByIndex (s : State) (n : Int) : Except InvalidRegister Word :=
  match registerIndex n with
  | .error e => .error e
  | .ok r => .ok (readReg s r)

/-- `write(n, v)`: the low 32 bits of any integer (R23, R24, R25). -/
def writeByIndex (s : State) (n v : Int) : Except InvalidRegister State :=
  match registerIndex n with
  | .error e => .error e
  | .ok r => .ok (writeReg s r (BitVec.ofInt 32 v))

/-- `name_of(n)`: the canonical name (R21, R24). -/
def nameByIndex (n : Int) : Except InvalidRegister Text :=
  match registerIndex n with
  | .error e => .error e
  | .ok r => .ok (regNames.getD r.toNat [])

end Sys2Proof.Machine
end

