-- ==== Sys2Proof/Machine/Run.lean ====
section
/-!
DEFINITION. The host's `step`, `run` and `get_state` (70_reset_and_hazards.md R240 to R246): the status of a step,
which `Host.Outcome` cannot tell apart from a next state (log 1), the bounded run and the snapshot.
-/

namespace Sys2Proof

/-- The `decoded_info` that the host reports with a step from a state (R240). The spec gives no format and says to assume
none (91_not_in_source.md), so it is a free value (log 14). -/
opaque Config.decodedInfo : Machine.State → String

/-- The message that the host reports with a fault raised in a state (R201, R240). The spec gives no text but the cap's
(R242), so it is a free value (log 14). -/
opaque Config.faultMessage : Machine.State → Machine.Fault → String

end Sys2Proof

namespace Sys2Proof.Machine

/-- The status of a step (R37, R100, R240). -/
inductive Status where
  | running | halted | completed | error
  deriving DecidableEq, Repr

/-- What `get_state` returns (R244): registers in their signed reading, memory words as stored (D21). The history is
the host's log and is not modelled (R8, R38). -/
structure Snapshot where
  pc   : Word
  regs : List Int
  imem : List Word
  dmem : List Word
  deriving DecidableEq, Repr

/-- `get_state()`: a pure read (R244, R246). -/
def getState (s : State) : Snapshot where
  pc   := s.pc
  regs := (List.range 32).map (fun n => s32 (readReg s (BitVec.ofNat 5 n)))
  imem := (List.range Config.imemWords).map (fun k => readWord s.imem (4 * k))
  dmem := (List.range (Config.dmemBytes / 4)).map (fun k => readWord s.dmem (4 * k))

/-- What a fault's message says: at the cap the text R242 gives, else a free text (log 14). -/
def messageOf (s : State) : Fault → String
  | .iterationLimitExceeded _ => "terminated — exceeded iteration limit"
  | .notLoaded => Config.faultMessage s .notLoaded
  | .pcMisaligned pc => Config.faultMessage s (.pcMisaligned pc)
  | .reservedInstruction w => Config.faultMessage s (.reservedInstruction w)
  | .memoryAlignmentError ea => Config.faultMessage s (.memoryAlignmentError ea)
  | .memoryRangeError ea => Config.faultMessage s (.memoryRangeError ea)
  | .pcOutOfRange target => Config.faultMessage s (.pcOutOfRange target)

/-- The outputs of a step (R116, R240) and the state after it: status, fault and message when the status is Error, the pc
at fetch, the fetched word where one was fetched, and `decoded_info`. That there is no message on another status and no
word where none was fetched is the model's choice (DESIGN CHOICE; log 14). -/
structure StepResult where
  status      : Status
  fault       : Option Fault
  message     : Option String
  pcAtFetch   : Word
  word        : Option Word
  decodedInfo : String
  after       : State
  deriving DecidableEq, Repr

/-- The post-step snapshot of a step's result (R240). -/
def StepResult.snapshot (r : StepResult) : Snapshot := getState r.after

/-- The word a step fetched, if its checks let it fetch (R100, R116). -/
def fetchedWord (s : State) : Option Word :=
  match front s with
  | .error (.reservedInstruction w) => some w
  | .error _ => none
  | .completed => none
  | .halted => some 0#32
  | .execute w _ => some w

/-- The result of a step from `s` with this status, fault and state after it. -/
def report (s : State) (status : Status) (fault : Option Fault) (after : State) : StepResult where
  status      := status
  fault       := fault
  message     := fault.map (messageOf s)
  pcAtFetch   := s.pc
  word        := fetchedWord s
  decodedInfo := Config.decodedInfo s
  after       := after

/-- The host's `step()` (R240): an error, a halt and a completion leave the state as it was (R112). -/
def stepResult (s : State) : StepResult :=
  match front s with
  | .error f => report s .error (some f) s
  | .completed => report s .completed none s
  | .halted => report s .halted none s
  | .execute _ i =>
    match exec i s with
    | .next t => report s .running none t
    | .fault f => report s .error (some f) s
    -- no arm of exec refuses
    | .refused _ => report s .error none s

/-- What `run` returns (R241), with the message where the status is Error (R242). The history is the host's log and is
not modelled (R8, R38). -/
structure RunResult where
  status   : Status
  fault    : Option Fault
  message  : Option String
  executed : Nat
  final    : State
  deriving DecidableEq, Repr

/-- The final snapshot of a run (R241). -/
def RunResult.snapshot (r : RunResult) : Snapshot := getState r.final

/-- Repeats `step()` until a status other than Running, at most `fuel` more running steps; `n` have run (R241, R242). -/
def runLoop : Nat → Nat → State → RunResult
  | 0, n, s =>
    ⟨.error, some (.iterationLimitExceeded n), some (messageOf s (.iterationLimitExceeded n)), n, s⟩
  | fuel + 1, n, s =>
    let r := stepResult s
    if r.status = .running then runLoop fuel (n + 1) r.after
    else ⟨r.status, r.fault, r.message, n, r.after⟩

/-- The host's `run()` (R241, R242): after `RUN_CAP` running steps it stops without another step. -/
def run (s : State) : RunResult := runLoop Config.runCap 0 s

end Sys2Proof.Machine
end

