-- ==== Sys2Proof/Safety.lean ====
section
/-!
DEFINITION. The terms statements use: the invariant of the machine, what two states have in common, which register an
instruction writes, and the readings of an outcome.
-/

namespace Sys2Proof.Machine

/-- The machine's invariant: both arrays are in canonical form; instruction memory lists nothing past the program
(R56) and the program fits it (R238); data memory lists nothing past its capacity (R34); slot 0 of the register file
holds 0 (R22). -/
abbrev MachineInv (s : State) : Prop :=
  Memory.wf s.imem ∧ Memory.wf s.dmem ∧ (∀ c ∈ s.imem, c.1 < 4 * s.progLen) ∧ s.progLen ≤ Config.imemWords
    ∧ (∀ c ∈ s.dmem, c.1 < Config.dmemBytes) ∧ s.regs[0] = 0#32

/-- Every register reads the same. -/
def SameRegs (s t : State) : Prop := ∀ r, readReg t r = readReg s r

/-- Every register but `d` reads the same. -/
def SameRegsBut (d : RegIx) (s t : State) : Prop := ∀ r, r ≠ d → readReg t r = readReg s r

/-- Every byte of data memory reads the same. -/
def SameData (s t : State) : Prop := ∀ a, memGet t.dmem a = memGet s.dmem a

/-- Every byte of data memory outside the word at `a` reads the same. -/
def SameDataBut (a : Nat) (s t : State) : Prop :=
  ∀ b, (b < a ∨ a + 4 ≤ b) → memGet t.dmem b = memGet s.dmem b

/-- Every byte of instruction memory reads the same, and so do `prog_len` and `loaded`. -/
def SameProgram (s t : State) : Prop :=
  (∀ a, memGet t.imem a = memGet s.imem a) ∧ t.progLen = s.progLen ∧ t.loaded = s.loaded

/-- Register `d` holds `v`, or 0 where `d` is register 0, whose write is dropped (R22, R23); every other register, both
arrays, `prog_len` and `loaded` are as before; and the pc is the next instruction's (R110). -/
def WritesOnly (d : RegIx) (v : Word) (s t : State) : Prop :=
  readReg t d = (if d = 0#5 then 0#32 else v) ∧ SameRegsBut d s t ∧ SameData s t ∧ SameProgram s t ∧ t.pc = s.pc + 4#32

/-- The pc is `target`; every register, both arrays, `prog_len` and `loaded` are as before. -/
def JumpsOnly (target : Word) (s t : State) : Prop :=
  t.pc = target ∧ SameRegs s t ∧ SameData s t ∧ SameProgram s t

/-- The register an instruction writes (R27). -/
def destination : Instr → Option RegIx
  | .add rd _ _ => some rd
  | .sub rd _ _ => some rd
  | .and rd _ _ => some rd
  | .or rd _ _ => some rd
  | .slt rd _ _ => some rd
  | .sll rd _ _ => some rd
  | .srl rd _ _ => some rd
  | .jr _ => none
  | .addi rt _ _ => some rt
  | .lw rt _ _ => some rt
  | .sw _ _ _ => none
  | .beq _ _ _ => none
  | .bne _ _ _ => none
  | .j _ => none
  | .jal _ => some 31#5

/-- The state after a step, as the host sees it (R240): a step that does not run changes nothing (R112). -/
def afterStep (s : State) : State := (stepResult s).after

/-- The outcome is a next state that satisfies `p`. -/
def onNext (o : StepOutcome) (p : State → Bool) : Bool :=
  match o with
  | .next t => p t
  | .fault _ => false
  | .refused _ => false

/-- The fault of an outcome. -/
def faultOf (o : StepOutcome) : Option Fault :=
  match o with
  | .next _ => none
  | .fault f => some f
  | .refused _ => none

end Sys2Proof.Machine
end

