-- ==== Sys2Proof/Certificates/Slice0/Obligations.lean ====
section
/-!
DEFINITION. The statements about the model. Each docstring names the rules of spec/ it formalises; where a statement
rests on a choice of the model or on a decision the spec marks as its own, it names the log entry or the decision.
`WritesOnly`, `JumpsOnly`, `SameRegs`, `SameData`, `SameProgram` (Safety.lean) are the frames: registers through
`readReg`, memory through the read of one byte.
-/

open Sys2Proof Sys2Proof.Machine

/-! ### Encoding (30_encoding.md) -/

/-- One word of each instruction, from the spec's own examples (R131 to R137, R150, R161, R162, R184 to R188), decodes to
the instruction it stands for. The selector numbers are the spec's default map (D3; log 3). -/
def Obligations.ExampleWordsDecode : Prop :=
  decode 0x02114020#32 = some (.add 8 16 17) ∧ decode 0x01095022#32 = some (.sub 10 8 9)
    ∧ decode 0x01095024#32 = some (.and 10 8 9) ∧ decode 0x01095025#32 = some (.or 10 8 9)
    ∧ decode 0x0109502A#32 = some (.slt 10 8 9) ∧ decode 0x00095100#32 = some (.sll 10 9 4)
    ∧ decode 0x00095102#32 = some (.srl 10 9 4) ∧ decode 0x2008FFFD#32 = some (.addi 8 0 0xFFFD)
    ∧ decode 0x8D090004#32 = some (.lw 9 8 4) ∧ decode 0xAD090008#32 = some (.sw 9 8 8)
    ∧ decode 0x11090002#32 = some (.beq 8 9 2) ∧ decode 0x1509FFFE#32 = some (.bne 8 9 0xFFFE)
    ∧ decode 0x08000003#32 = some (.j 3) ∧ decode 0x0C000003#32 = some (.jal 3)
    ∧ decode 0x03E00008#32 = some (.jr 31)

/-- For EVERY value of OPCODE_MAP that keeps the source's statements (R78), the decoder gives back every instruction from
its encoding (R79, R89 to R91). -/
def Obligations.DecodeOfEncodeGivesTheInstruction : Prop :=
  ∀ m : OpcodeMap, m.valid = true → ∀ i : Instr, decodeWith m (encodeWith m i) = some i

/-- The other direction: a word that decodes is the encoding of its instruction but for the bits the instruction ignores
(R79, R80; D3, D5). -/
def Obligations.EncodeOfDecodeClearsIgnoredBits : Prop :=
  ∀ (w : Word) (i : Instr), decode w = some i → encode i = w &&& usedBits i

/-- Bits in fields an instruction does not name do not change what a word decodes to (R80; D5). -/
def Obligations.IgnoredBitsDoNotMatter : Prop :=
  ∀ (w w' : Word) (i : Instr), decode w = some i → w' &&& usedBits i = w &&& usedBits i → decode w' = some i

/-- Exactly the words of R81's two cases are no instruction, at the default map (R81, R79; D3, D4). -/
def Obligations.ReservedWordsAreExactlyTheListed : Prop :=
  ∀ w : Word, decode w = none ↔
    (fieldOpcode w = 0#6 ∧ fieldFunct w ∉ [0x00#6, 0x02#6, 0x08#6, 0x20#6, 0x22#6, 0x24#6, 0x25#6, 0x2A#6])
      ∨ fieldOpcode w ∉ [0x00#6, 0x02#6, 0x03#6, 0x04#6, 0x05#6, 0x08#6, 0x23#6, 0x2B#6]

/-- The decoder by cases and R79's table of match and mask pairs are one decoder: a word lies in the row of what it
decodes to, and a word that lies in an instruction's row decodes to an instruction of that row (R79; D3). -/
def Obligations.DecodeAgreesWithMaskAndMatch : Prop :=
  (∀ (w : Word) (i : Instr), decode w = some i → w &&& rowMask i = rowMatch i)
    ∧ ∀ (w : Word) (j : Instr), w &&& rowMask j = rowMatch j →
        ∃ i, decode w = some i ∧ rowMask i = rowMask j ∧ rowMatch i = rowMatch j

/-- The one instruction the toolchain's encoding cannot express is the one whose word is the halt sentinel (R82, R95). -/
def Obligations.IllFormedExactlyWhenEncodedAsHalt : Prop :=
  ∀ i : Instr, i.wellFormed = false ↔ encode i = 0#32

/-- Every field is the bits R71's table gives, read as a number; the fields overlap as R71 says (R71). -/
def Obligations.FieldsAreTheBitsOfTheWord : Prop :=
  ∀ w : Word,
    ((fieldOpcode w).toNat = u32 w / 2 ^ 26 ∧ (fieldRs w).toNat = u32 w / 2 ^ 21 % 2 ^ 5
        ∧ (fieldRt w).toNat = u32 w / 2 ^ 16 % 2 ^ 5 ∧ (fieldRd w).toNat = u32 w / 2 ^ 11 % 2 ^ 5
        ∧ (fieldShamt w).toNat = u32 w / 2 ^ 6 % 2 ^ 5 ∧ (fieldFunct w).toNat = u32 w % 2 ^ 6
        ∧ (fieldImm w).toNat = u32 w % 2 ^ 16 ∧ (fieldAddr w).toNat = u32 w % 2 ^ 26)
      ∧ fieldImm w = fieldRd w ++ fieldShamt w ++ fieldFunct w ∧ fieldAddr w = fieldRs w ++ fieldRt w ++ fieldImm w

/-- The immediates as R76 assembles them: the sign-extended immediate with R13's formula and its range; the branch
displacement, a multiple of 4 in its range, which is what the branch target adds; the shift amount from 0 to 31; and the
jump target bit by bit (R76, R13, R180, R182). -/
def Obligations.ImmediatesAreAssembledFromTheBits : Prop :=
  (∀ imm : Imm16,
      sext32 imm = (if imm.getLsbD 15 then imm.setWidth 32 ||| 0xFFFF0000#32 else imm.setWidth 32)
        ∧ s32 (sext32 imm) = imm.toInt ∧ -32768 ≤ s32 (sext32 imm) ∧ s32 (sext32 imm) ≤ 32767)
    ∧ (∀ (pc : Word) (imm : Imm16), let d := s32 (sext32 imm <<< 2)
        d = 4 * imm.toInt ∧ -131072 ≤ d ∧ d ≤ 131068 ∧ branchTarget pc imm = (u32 pc : Int) + 4 + d)
    ∧ (∀ sh : Shamt, shiftAmount sh = sh.toNat ∧ shiftAmount sh ≤ 31)
    ∧ ∀ (pc : Word) (addr : Addr26) (k : Nat), k < 32 →
        (jumpTarget pc addr).getLsbD k =
          if k < 2 then false else if k < 28 then addr.getLsbD (k - 2) else pc.getLsbD k

/-! ### The register file (10_state.md) -/

/-- Register 0 reads 0 in every state and drops every write, with nothing else changed; any other register reads the low
32 bits of the integer written, and nothing else changes (R22, R23). -/
def Obligations.RegisterFileLaw : Prop :=
  (∀ s, readReg s 0#5 = 0#32) ∧ (∀ s v, writeReg s 0#5 v = s)
    ∧ (∀ s r (v : Int), r ≠ 0#5 → (u32 (readReg (writeReg s r (BitVec.ofInt 32 v)) r) : Int) = v % 2 ^ 32)
    ∧ ∀ s r v, SameRegsBut r s (writeReg s r v) ∧ SameData s (writeReg s r v) ∧ SameProgram s (writeReg s r v)
        ∧ (writeReg s r v).pc = s.pc

/-- The register file's calls by index fail outside 0 to 31 and otherwise read, write the low 32 bits, and name (R24, R25,
R21). -/
def Obligations.RegisterCallsCheckTheirIndex : Prop :=
  (∀ (s : State) (n v : Int), n < 0 ∨ 32 ≤ n →
      readByIndex s n = .error (.invalidRegister n) ∧ writeByIndex s n v = .error (.invalidRegister n)
        ∧ nameByIndex n = .error (.invalidRegister n))
    ∧ ∀ (s : State) (n v : Int), 0 ≤ n → n < 32 →
        ∃ t, writeByIndex s n v = .ok t
          ∧ readByIndex t n = .ok (if n = 0 then 0#32 else BitVec.ofInt 32 v)
          ∧ ∃ name, nameByIndex n = .ok name ∧ registerOf name = .ok (BitVec.ofInt 5 n)

/-! ### The arrays (20_memory.md) -/

/-- In EITHER byte order of the byte view, a word read after a word written is that word at its address and the old word
at every other word address: no word access observes the order (R53, R57, R59; D6; log 2). -/
def Obligations.WordReadAfterWriteInEitherByteOrder : Prop :=
  ∀ (o : ByteOrder) (m : Memory) (a b : Nat) (v : Word), a % 4 = 0 → b % 4 = 0 →
    readWordIn o (writeWordIn o m a v) b = if b = a then v else readWordIn o m b

/-- Memories in canonical form that read the same byte at every address are the same memory (the canonical form of the
model; log 2). -/
def Obligations.CanonicalMemoriesAreEqualWhenTheyReadEqual : Prop :=
  ∀ m m' : Memory, Memory.wf m → Memory.wf m' → (∀ a, memGet m a = memGet m' a) → m = m'

/-- Fetch gives the word of index `pc / 4`, and 0 beyond the program and beyond capacity, in every state of the invariant
(R55, R56, R104; D13). -/
def Obligations.FetchReadsTheWordOrZero : Prop :=
  ∀ (s : State) (pc : Word), MachineInv s → u32 pc % 4 = 0 →
    (u32 pc < 4 * s.progLen → iFetch s.imem pc = readWord s.imem (u32 pc))
      ∧ (4 * s.progLen ≤ u32 pc → iFetch s.imem pc = 0#32)

/-- The effective address is the exact integer sum, in the range R160 gives, and is not reduced (R160; D7). -/
def Obligations.EffectiveAddressIsTheExactSum : Prop :=
  ∀ (base : Word) (imm : Imm16),
    effectiveAddress base imm = (u32 base : Int) + imm.toInt
      ∧ -32768 ≤ effectiveAddress base imm ∧ effectiveAddress base imm ≤ 2 ^ 32 + 32766

/-! ### The instructions (41_alu_register.md, 42_alu_immediate.md, 43_load_store.md, 44_control_transfer.md) -/

/-- R131, whole. (The funct is the rule's number, which the spec takes from general knowledge: log 3.) -/
def Obligations.AddWritesTheWrappedSum : Prop :=
  ∀ (rd rs rt : RegIx) (s : State),
    (∃ v t, exec (.add rd rs rt) s = .next t ∧ WritesOnly rd v s t
        ∧ u32 v = (u32 (readReg s rs) + u32 (readReg s rt)) % 2 ^ 32)
      ∧ ∀ sh, decode (wordR rs rt rd sh 0x20#6) = some (.add rd rs rt)

/-- R132, whole. (The funct: log 3.) -/
def Obligations.SubWritesTheWrappedDifference : Prop :=
  ∀ (rd rs rt : RegIx) (s : State),
    (∃ v t, exec (.sub rd rs rt) s = .next t ∧ WritesOnly rd v s t
        ∧ (u32 v : Int) = ((u32 (readReg s rs) : Int) - (u32 (readReg s rt) : Int)) % 2 ^ 32)
      ∧ ∀ sh, decode (wordR rs rt rd sh 0x22#6) = some (.sub rd rs rt)

/-- R133, whole. (The funct: log 3.) -/
def Obligations.AndWritesTheBitwiseAnd : Prop :=
  ∀ (rd rs rt : RegIx) (s : State),
    (∃ v t, exec (.and rd rs rt) s = .next t ∧ WritesOnly rd v s t
        ∧ ∀ k, v.getLsbD k = ((readReg s rs).getLsbD k && (readReg s rt).getLsbD k))
      ∧ ∀ sh, decode (wordR rs rt rd sh 0x24#6) = some (.and rd rs rt)

/-- R134, whole. (The funct: log 3.) -/
def Obligations.OrWritesTheBitwiseOr : Prop :=
  ∀ (rd rs rt : RegIx) (s : State),
    (∃ v t, exec (.or rd rs rt) s = .next t ∧ WritesOnly rd v s t
        ∧ ∀ k, v.getLsbD k = ((readReg s rs).getLsbD k || (readReg s rt).getLsbD k))
      ∧ ∀ sh, decode (wordR rs rt rd sh 0x25#6) = some (.or rd rs rt)

/-- R135, whole: values from 0x80000000 on count as negative. (The funct: log 3.) -/
def Obligations.SltWritesTheSignedComparison : Prop :=
  ∀ (rd rs rt : RegIx) (s : State),
    (∃ v t, exec (.slt rd rs rt) s = .next t ∧ WritesOnly rd v s t
        ∧ v = if s32 (readReg s rs) < s32 (readReg s rt) then 1#32 else 0#32)
      ∧ ∀ sh, decode (wordR rs rt rd sh 0x2A#6) = some (.slt rd rs rt)

/-- R136, whole: the word is decoded whatever its ignored `rs` holds, and the all-zero word halts and is not executed. (The
funct: log 3.) -/
def Obligations.SllShiftsLeftLogical : Prop :=
  ∀ (rd rt : RegIx) (sh : Shamt) (s : State),
    (∃ v t, exec (.sll rd rt sh) s = .next t ∧ WritesOnly rd v s t
        ∧ u32 v = u32 (readReg s rt) * 2 ^ sh.toNat % 2 ^ 32)
      ∧ (∀ rs, decode (wordR rs rt rd sh 0x00#6) = some (.sll rd rt sh)) ∧ dispatchWord 0#32 = .halted

/-- R137, whole: zeros come in at bit 31. (The funct: log 3.) -/
def Obligations.SrlShiftsRightLogical : Prop :=
  ∀ (rd rt : RegIx) (sh : Shamt) (s : State),
    (∃ v t, exec (.srl rd rt sh) s = .next t ∧ WritesOnly rd v s t ∧ u32 v = u32 (readReg s rt) / 2 ^ sh.toNat)
      ∧ ∀ rs, decode (wordR rs rt rd sh 0x02#6) = some (.srl rd rt sh)

/-- R150, whole: the sign-extended immediate is added, and the sum wraps. (The opcode: log 3.) -/
def Obligations.AddiWritesTheWrappedSum : Prop :=
  ∀ (rt rs : RegIx) (imm : Imm16) (s : State),
    (∃ v t, exec (.addi rt rs imm) s = .next t ∧ WritesOnly rt v s t
        ∧ (u32 v : Int) = ((u32 (readReg s rs) : Int) + imm.toInt) % 2 ^ 32)
      ∧ decode (wordI 0x08#6 rs rt imm) = some (.addi rt rs imm)

/-- `lw` at an aligned address of data memory writes the word there (R161, R52; D7). -/
def Obligations.LwLoadsTheWord : Prop :=
  ∀ (rt rs : RegIx) (imm : Imm16) (s : State),
    let ea := effectiveAddress (readReg s rs) imm
    ea % 4 = 0 → 0 ≤ ea → ea < Config.dmemBytes →
      ∃ t, exec (.lw rt rs imm) s = .next t ∧ WritesOnly rt (readWord s.dmem ea.toNat) s t

/-- `sw` at an aligned address of data memory writes the word there and nothing else but the pc (R162, R53; D7). -/
def Obligations.SwStoresTheWord : Prop :=
  ∀ (rt rs : RegIx) (imm : Imm16) (s : State),
    let ea := effectiveAddress (readReg s rs) imm
    ea % 4 = 0 → 0 ≤ ea → ea < Config.dmemBytes →
      ∃ t, exec (.sw rt rs imm) s = .next t ∧ readWord t.dmem ea.toNat = readReg s rt
        ∧ SameDataBut ea.toNat s t ∧ SameRegs s t ∧ SameProgram s t ∧ t.pc = s.pc + 4#32

/-- `lw` and `sw` fault on an address that is misaligned or out of range, with the kind R161 gives. Where the address is
both, the statement accepts either kind (U3, D8; log 4). Even `lw` into register 0 faults. -/
def Obligations.BadDataAddressFaults : Prop :=
  ∀ (rt rs : RegIx) (imm : Imm16) (s : State),
    let ea := effectiveAddress (readReg s rs) imm
    (ea % 4 ≠ 0 → 0 ≤ ea → ea < Config.dmemBytes →
        exec (.lw rt rs imm) s = .fault (.memoryAlignmentError ea)
          ∧ exec (.sw rt rs imm) s = .fault (.memoryAlignmentError ea))
      ∧ (ea % 4 = 0 → (ea < 0 ∨ (Config.dmemBytes : Int) ≤ ea) →
        exec (.lw rt rs imm) s = .fault (.memoryRangeError ea)
          ∧ exec (.sw rt rs imm) s = .fault (.memoryRangeError ea))
      ∧ (ea % 4 ≠ 0 → (ea < 0 ∨ (Config.dmemBytes : Int) ≤ ea) →
        ∃ f, (f = .memoryAlignmentError ea ∨ f = .memoryRangeError ea)
          ∧ exec (.lw rt rs imm) s = .fault f ∧ exec (.sw rt rs imm) s = .fault f)

/-- A `lw` from the address a `sw` has just stored to completes and gives the word stored, and every other word of data
memory is as before the store (R62). -/
def Obligations.LoadAfterStoreGivesTheWordStored : Prop :=
  ∀ (rt rs : RegIx) (imm : Imm16) (s t : State), exec (.sw rt rs imm) s = .next t →
    (∀ (rt' rs' : RegIx) (imm' : Imm16),
        effectiveAddress (readReg t rs') imm' = effectiveAddress (readReg s rs) imm →
        ∃ u, exec (.lw rt' rs' imm') t = .next u ∧ readReg u rt' = if rt' = 0#5 then 0#32 else readReg s rt)
      ∧ ∀ b : Nat, b % 4 = 0 → (b : Int) ≠ effectiveAddress (readReg s rs) imm →
          readWord t.dmem b = readWord s.dmem b

/-- R184, whole, at every pc that can execute (R29): the target is the exact integer, one below 0 is the fault, and a
branch not taken falls through. (The opcode: log 3.) -/
def Obligations.BeqBranchesOnEquality : Prop :=
  ∀ (rs rt : RegIx) (imm : Imm16) (s : State), u32 s.pc < 2 ^ 31 →
    let bt : Int := (u32 s.pc : Int) + 4 + imm.toInt * 4
    (readReg s rs = readReg s rt → 0 ≤ bt →
        ∃ t, exec (.beq rs rt imm) s = .next t ∧ JumpsOnly t.pc s t ∧ (u32 t.pc : Int) = bt)
      ∧ (readReg s rs = readReg s rt → bt < 0 → exec (.beq rs rt imm) s = .fault (.pcOutOfRange bt))
      ∧ (readReg s rs ≠ readReg s rt → ∃ t, exec (.beq rs rt imm) s = .next t ∧ JumpsOnly (s.pc + 4#32) s t)
      ∧ decode (wordI 0x04#6 rs rt imm) = some (.beq rs rt imm)

/-- R185, whole, at every pc that can execute (R29). (The opcode: log 3.) -/
def Obligations.BneBranchesOnInequality : Prop :=
  ∀ (rs rt : RegIx) (imm : Imm16) (s : State), u32 s.pc < 2 ^ 31 →
    let bt : Int := (u32 s.pc : Int) + 4 + imm.toInt * 4
    (readReg s rs ≠ readReg s rt → 0 ≤ bt →
        ∃ t, exec (.bne rs rt imm) s = .next t ∧ JumpsOnly t.pc s t ∧ (u32 t.pc : Int) = bt)
      ∧ (readReg s rs ≠ readReg s rt → bt < 0 → exec (.bne rs rt imm) s = .fault (.pcOutOfRange bt))
      ∧ (readReg s rs = readReg s rt → ∃ t, exec (.bne rs rt imm) s = .next t ∧ JumpsOnly (s.pc + 4#32) s t)
      ∧ decode (wordI 0x05#6 rs rt imm) = some (.bne rs rt imm)

/-- R186, whole: the target is in the region of the jump's own pc, word `addr` of it; in a loaded machine a target at or
past the program's end gives Completed at the next step. (The opcode: log 3.) -/
def Obligations.JumpGoesToTheWordOfItsRegion : Prop :=
  ∀ (addr : Addr26) (s : State),
    (∃ t, exec (.j addr) s = .next t ∧ JumpsOnly t.pc s t
        ∧ u32 t.pc = u32 s.pc / 2 ^ 28 * 2 ^ 28 + addr.toNat * 4
        ∧ (s.loaded = true → s.progLen * 4 ≤ u32 t.pc → (stepResult t).status = .completed)
        ∧ u32 t.pc % 4 = 0)
      ∧ decode (wordJ 0x02#6 addr) = some (.j addr)

/-- R187, whole: the link register takes the byte address after the `jal`, and the pc the target of R182. (The opcode:
log 3.) -/
def Obligations.JalLinksAndJumps : Prop :=
  ∀ (addr : Addr26) (s : State),
    (∃ t, exec (.jal addr) s = .next t ∧ readReg t 31#5 = s.pc + 4#32 ∧ SameRegsBut 31#5 s t
        ∧ SameData s t ∧ SameProgram s t ∧ u32 t.pc = u32 s.pc / 2 ^ 28 * 2 ^ 28 + addr.toNat * 4)
      ∧ decode (wordJ 0x03#6 addr) = some (.jal addr)

/-- R188, whole: the full pattern of the register, with no fault at this step; at the next step of a loaded machine
Completed comes before PCMisaligned. (The funct: log 3.) -/
def Obligations.JrLoadsThePc : Prop :=
  ∀ (rs : RegIx) (s : State),
    (∃ t, exec (.jr rs) s = .next t ∧ JumpsOnly (readReg s rs) s t
        ∧ (s.loaded = true → s.progLen * 4 ≤ u32 (readReg s rs) → (stepResult t).status = .completed)
        ∧ (s.loaded = true → u32 (readReg s rs) < s.progLen * 4 → u32 (readReg s rs) % 4 ≠ 0 →
            (stepResult t).status = .error ∧ (stepResult t).fault = some (.pcMisaligned (readReg s rs))))
      ∧ ∀ rt rd sh, decode (wordR rs rt rd sh 0x08#6) = some (.jr rs)

/-! ### All instructions at once -/

/-- Whatever the instruction, only the registers of R27's list change (R27). -/
def Obligations.OnlyTheListedRegistersAreWritten : Prop :=
  ∀ (i : Instr) (s t : State), exec i s = .next t → ∀ r, destination i ≠ some r → readReg t r = readReg s r

/-- Stores reach data memory only: no number of steps changes instruction memory, `prog_len` or `loaded`, so the words
fetched stay the same (R65); and `sw` is the only instruction that changes data memory (R34). -/
def Obligations.TheInstructionStreamIsFixed : Prop :=
  (∀ (k : Nat) (s t : State), Host.Core.run Sys2Proof.core k s = .next t →
      t.imem = s.imem ∧ t.progLen = s.progLen ∧ t.loaded = s.loaded ∧ ∀ pc, iFetch t.imem pc = iFetch s.imem pc)
    ∧ ∀ (i : Instr) (s t : State), exec i s = .next t → (∀ rt rs imm, i ≠ .sw rt rs imm) → SameData s t

/-- The next pc of every instruction is the one the pc multiplexer's table selects (R110). At a pc of 2^31 or more, which no
run reaches, that a taken branch's target is the sum modulo 2^32 is the model's choice (log 9). -/
def Obligations.TheNextPcIsTheMultiplexersChoice : Prop :=
  ∀ (i : Instr) (s t : State), exec i s = .next t →
    t.pc = match i with
      | .beq rs rt imm =>
          if readReg s rs = readReg s rt then s.pc + 4#32 + (sext32 imm <<< 2) else s.pc + 4#32
      | .bne rs rt imm =>
          if readReg s rs = readReg s rt then s.pc + 4#32 else s.pc + 4#32 + (sext32 imm <<< 2)
      | .j addr => (s.pc &&& 0xF0000000#32) ||| (addr.setWidth 32 <<< 2)
      | .jal addr => (s.pc &&& 0xF0000000#32) ||| (addr.setWidth 32 <<< 2)
      | .jr rs => readReg s rs
      | .add _ _ _ => s.pc + 4#32
      | .sub _ _ _ => s.pc + 4#32
      | .and _ _ _ => s.pc + 4#32
      | .or _ _ _ => s.pc + 4#32
      | .slt _ _ _ => s.pc + 4#32
      | .sll _ _ _ => s.pc + 4#32
      | .srl _ _ _ => s.pc + 4#32
      | .addi _ _ _ => s.pc + 4#32
      | .lw _ _ _ => s.pc + 4#32
      | .sw _ _ _ => s.pc + 4#32

/-- The single-cycle datapath of units, multiplexers and control signals does what the instruction rules say, WHATEVER the
control wires carry where the control table says don't care (R108 to R110, R113 to R115; D19). -/
def Obligations.DatapathRefinesTheInstructionRules : Prop :=
  ∀ (w : Word) (i : Instr) (k : ControlWires) (s : State),
    decode w = some i → (controlRow i).drives k = true → datapathExec k w s = exec i s

/-! ### The step (40_datapath_cycle.md, 60_exceptions.md) -/

/-- A step in a loaded machine at an aligned pc inside the program runs the instruction that the fetched nonzero word
decodes to; nothing is done around it (R100, R104, R107). -/
def Obligations.StepRunsTheDecodedInstruction : Prop :=
  ∀ (s : State) (i : Instr), s.loaded = true → u32 s.pc < s.progLen * 4 → u32 s.pc % 4 = 0 →
    iFetch s.imem s.pc ≠ 0#32 → decode (iFetch s.imem s.pc) = some i → step s = exec i s

/-- In any state, a nonzero word that decodes and is placed by `withFetchWord` is what the very next step runs (the model's
own stand-in for a load; log 10). -/
def Obligations.PlacedWordRunsNext : Prop :=
  ∀ (s : State) (nbits w : Nat) (i : Instr), BitVec.ofNat 32 (w % 2 ^ nbits) ≠ 0#32 → decodeTableWord nbits w = some i →
    step (s.withFetchWord nbits w) = exec i (s.withFetchWord nbits w)

/-- R101, whole. -/
def Obligations.StepBeforeLoadIsNotLoaded : Prop :=
  ∀ s : State, s.loaded = false →
    (stepResult s).status = .error ∧ (stepResult s).fault = some .notLoaded ∧ afterStep s = s
      ∧ step s = .fault .notLoaded

/-- At or past the program's end the step is Completed and changes nothing, whatever the alignment of the pc (R102). That
`step` answers the unchanged state as a next state is the model's choice (log 1). -/
def Obligations.StepPastTheProgramIsCompleted : Prop :=
  ∀ s : State, s.loaded = true → s.progLen * 4 ≤ u32 s.pc →
    (stepResult s).status = .completed ∧ (stepResult s).fault = none ∧ afterStep s = s ∧ step s = .next s

/-- A misaligned pc below the program's end is the fault PCMisaligned, and nothing changes (R103; D10). -/
def Obligations.MisalignedFetchFaults : Prop :=
  ∀ s : State, s.loaded = true → u32 s.pc < s.progLen * 4 → u32 s.pc % 4 ≠ 0 →
    (stepResult s).status = .error ∧ (stepResult s).fault = some (.pcMisaligned s.pc) ∧ afterStep s = s
      ∧ step s = .fault (.pcMisaligned s.pc)

/-- The fetched word 0 halts the machine with nothing changed, the pc included (R105, R82). That `step` answers the
unchanged state as a next state is the model's choice (log 1). -/
def Obligations.ZeroWordHalts : Prop :=
  ∀ s : State, s.loaded = true → u32 s.pc < s.progLen * 4 → u32 s.pc % 4 = 0 → iFetch s.imem s.pc = 0#32 →
    (stepResult s).status = .halted ∧ (stepResult s).fault = none ∧ afterStep s = s ∧ step s = .next s

/-- A fetched nonzero word that is no instruction is the fault ReservedInstruction, and nothing changes (R81, R107; D4). -/
def Obligations.ReservedWordFaults : Prop :=
  ∀ s : State, s.loaded = true → u32 s.pc < s.progLen * 4 → u32 s.pc % 4 = 0 → iFetch s.imem s.pc ≠ 0#32 →
    decode (iFetch s.imem s.pc) = none →
    (stepResult s).status = .error ∧ (stepResult s).fault = some (.reservedInstruction (iFetch s.imem s.pc))
      ∧ afterStep s = s ∧ step s = .fault (.reservedInstruction (iFetch s.imem s.pc))

/-- R111, whole: an instruction executed without a fault gives Running even when its new pc is past the program's end, and
then the next step gives Completed. -/
def Obligations.RunningEvenWhenThePcLeavesTheProgram : Prop :=
  ∀ (s t : State) (w : Word) (i : Instr), front s = .execute w i → exec i s = .next t →
    (stepResult s).status = .running ∧ afterStep s = t
      ∧ (t.progLen * 4 ≤ u32 t.pc → (stepResult t).status = .completed)

/-- The two views of a step agree: `step` answers a next state exactly when the status is Running, Halted or Completed, and
a fault exactly when it is Error; no step is refused (R37, R100, R201; log 1). -/
def Obligations.StepAndStepResultAgree : Prop :=
  ∀ s : State,
    (∀ t, step s = .next t ↔ (stepResult s).status ≠ .error ∧ afterStep s = t)
      ∧ (∀ f, step s = .fault f ↔ (stepResult s).status = .error ∧ (stepResult s).fault = some f)
      ∧ ∀ r, step s ≠ .refused r

/-- What a step reports beside its status: the pc at fetch; a fault exactly when the status is Error; a message then; the
fetched word; and the snapshot of the state after it (R116, R240). That there is no message on another status, and no word
where the checks before fetch stop the step, is the model's choice (log 14). -/
def Obligations.StepReportsItsOutputs : Prop :=
  ∀ s : State,
    (stepResult s).pcAtFetch = s.pc
      ∧ ((stepResult s).status = .error ↔ (stepResult s).fault.isSome = true)
      ∧ ((stepResult s).status = .error ↔ (stepResult s).message.isSome = true)
      ∧ (stepResult s).word =
          (if s.loaded = true ∧ u32 s.pc < s.progLen * 4 ∧ u32 s.pc % 4 = 0 then some (iFetch s.imem s.pc) else none)
      ∧ (stepResult s).snapshot = getState (afterStep s)

/-- A step whose status is not Running changes nothing, so every later step gives the same result: the stopped states are
absorbing (R112, R37). -/
def Obligations.StoppedMachinesStayStopped : Prop :=
  ∀ s : State, (stepResult s).status ≠ .running → ∀ k : Nat, stepResult (afterStep^[k] s) = stepResult s ∧ afterStep^[k] s = s

/-- The invariant holds in the state at power-on (R39, R230). -/
def Obligations.ResetMeetsTheInvariant : Prop := MachineInv State.reset

/-- Every step keeps the invariant: canonical memories inside their bounds, instruction memory empty past the program, and
slot 0 of the register file 0 (R22, R34, R56, R65; the canonical form is the model's, log 2). -/
def Obligations.StepKeepsTheInvariant : Prop :=
  ∀ s t : State, MachineInv s → step s = .next t → MachineInv t

/-- In a machine of the invariant no pc wraps while instructions execute: an executing pc is below 2^31, the next
sequential address is the exact sum, and a taken branch goes to the exact integer target (R29, R181). -/
def Obligations.NoPcWrapsWhileExecuting : Prop :=
  ∀ (s : State) (w : Word) (i : Instr), MachineInv s → front s = .execute w i →
    u32 s.pc < 2 ^ 31 ∧ u32 (s.pc + 4#32) = u32 s.pc + 4
      ∧ ∀ imm : Imm16, 0 ≤ branchTarget s.pc imm →
          (u32 (s.pc + 4#32 + (sext32 imm <<< 2)) : Int) = branchTarget s.pc imm

/-! ### The host's operations (70_reset_and_hazards.md) -/

/-- `reset` zeroes registers, pc and both arrays and leaves `loaded` and `prog_len`; at power-on both of these are 0 too
(R39, R230, R231; D17). -/
def Obligations.ResetZeroesTheMachine : Prop :=
  (∀ s : State, (∀ r, readReg (hostReset s) r = 0#32) ∧ (hostReset s).pc = 0#32
      ∧ (∀ a, readWord (hostReset s).imem a = 0#32) ∧ (∀ a, readWord (hostReset s).dmem a = 0#32)
      ∧ (hostReset s).loaded = s.loaded ∧ (hostReset s).progLen = s.progLen)
    ∧ State.reset = hostReset { State.reset with loaded := false, progLen := 0 }

/-- R236, whole: the words installed, zero from `n` on, and no step ever writes instruction memory. -/
def Obligations.InstallWritesExactlyTheProgram : Prop :=
  (∀ (ws : List Word) (s : State), ws.length ≤ Config.imemWords →
      (∀ k, (h : k < ws.length) → readWord (loadWords ws s).imem (4 * k) = ws[k])
        ∧ ∀ k, ws.length ≤ k → k < Config.imemWords → readWord (loadWords ws s).imem (4 * k) = 0#32)
    ∧ ∀ s t : State, step s = .next t → t.imem = s.imem

/-- A source that is loaded starts in a machine of the invariant with pc 0, zero registers and zero data; `prog_len` is its
number of instructions; and at the address of each of them that the toolchain can express the machine executes exactly
that instruction (R235, R236, R89 to R91). -/
def Obligations.LoadedSourceExecutesAsWritten : Prop :=
  ∀ (src : Text) (after s t : State) (tr : List Translation), load src after s = .installed t tr →
    MachineInv t ∧ t.pc = 0#32 ∧ (∀ r, readReg t r = 0#32) ∧ (∀ a, readWord t.dmem a = 0#32) ∧ t.loaded = true
      ∧ ∃ a, assemble src = .ok a ∧ t.progLen = a.lines.length
        ∧ ∀ k l, a.lines[k]? = some l → l.2.wellFormed = true →
            front { t with pc := BitVec.ofNat 32 (4 * k) } = .execute (encode l.2) l.2

/-- After a load that fails, because assembly fails or the program is too long, the machine is not loaded and a step is
NotLoaded, WHATEVER the unspecified rest of the state is (R237, R238; D15, D16; log 5). That the failure of a program that
is too long is the kind `programTooLong` with the word count is the model's choice (log 12). -/
def Obligations.FailedLoadLeavesTheMachineUnloaded : Prop :=
  (∀ (src : Text) (after s t : State) (e : LoadError), load src after s = .failed e t →
      t.loaded = false ∧ step t = .fault .notLoaded)
    ∧ ∀ (src : Text) (after s : State) (a : Assembly), assemble src = .ok a → Config.imemWords < a.words.length →
        ∃ t, load src after s = .failed (.programTooLong a.words.length) t

/-- A run whose first step that is not Running is the one of index `k`, with `k + 1` below RUN_CAP, executes exactly `k`
instructions and reports that step; a machine that is Running for more than RUN_CAP + 1 steps ends in Error with
IterationLimitExceeded and its message (R241, R242, R243). Nothing is said of a run within one step of the cap, whose exact boundary and
count the source leaves open (U5, D18; log 7). -/
def Obligations.RunStopsAtTheFirstStopOrTheCap : Prop :=
  ∀ s : State,
    (∀ k, k + 1 < Config.runCap → (∀ j < k, (stepResult (afterStep^[j] s)).status = .running) →
        (stepResult (afterStep^[k] s)).status ≠ .running →
        (run s).executed = k ∧ (run s).final = afterStep^[k] s
          ∧ (run s).status = (stepResult (afterStep^[k] s)).status ∧ (run s).fault = (stepResult (afterStep^[k] s)).fault
          ∧ (run s).message = (stepResult (afterStep^[k] s)).message)
      ∧ ((∀ j ≤ Config.runCap + 1, (stepResult (afterStep^[j] s)).status = .running) →
          (run s).status = .error ∧ (∃ n, (run s).fault = some (.iterationLimitExceeded n))
            ∧ (run s).message = some "terminated — exceeded iteration limit")

/-- The snapshot shows each register's two's-complement reading, the pc, and each word of both arrays as stored (R244, R246;
D21). -/
def Obligations.SnapshotShowsSignedRegisters : Prop :=
  ∀ s : State,
    (∀ r : RegIx, (getState s).regs[r.toNat]? =
        some (if u32 (readReg s r) < 2 ^ 31 then (u32 (readReg s r) : Int) else (u32 (readReg s r) : Int) - 2 ^ 32))
      ∧ (getState s).regs.length = 32 ∧ (getState s).pc = s.pc
      ∧ (∀ k < Config.imemWords, (getState s).imem[k]? = some (readWord s.imem (4 * k)))
      ∧ (getState s).imem.length = Config.imemWords
      ∧ (∀ k < Config.dmemBytes / 4, (getState s).dmem[k]? = some (readWord s.dmem (4 * k)))
      ∧ (getState s).dmem.length = Config.dmemBytes / 4

/-! ### The toolchain (30_encoding.md section 5) -/

/-- The toolchain puts the BYTE address of the operand's label into the jump field, and the instruction it makes, `j` or
`jal`, goes to four times that address (R91, R186, R187; the quirk C2). -/
def Obligations.AssembledJumpGoesToFourTimesTheLabel : Prop :=
  ∀ (ls : Labels) (pc : Nat) (text : Text) (i : Instr) (a : Addr26),
    assembleOne ls pc text = .ok i → (i = .j a ∨ i = .jal a) →
      ∃ mnemonic name adr, tokens text = [mnemonic, name] ∧ labelAddress ls name = some adr ∧ a = BitVec.ofNat 26 adr
        ∧ ∀ s : State, u32 s.pc < 2 ^ 28 → adr < 2 ^ 26 → ∃ t, exec i s = .next t ∧ u32 t.pc = 4 * adr

/-- A line with a jump mnemonic and one operand that is a label of the table, not made only of digits, assembles to the jump
whose field is the label's byte address (R88, R91; digits: D24). -/
def Obligations.JumpToALabelAssembles : Prop :=
  ∀ (ls : Labels) (pc : Nat) (text mnemonic name : Text) (adr : Nat),
    tokens text = [mnemonic, name] → labelAddress ls name = some adr → name.all Char.isDigit = false →
      (lower mnemonic = "j".toList → assembleOne ls pc text = .ok (.j (BitVec.ofNat 26 adr)))
        ∧ (lower mnemonic = "jal".toList → assembleOne ls pc text = .ok (.jal (BitVec.ofNat 26 adr)))

/-- The branch offset law: an assembled branch whose label is in reach goes to the label's address when it is taken (R90,
R184, R185). -/
def Obligations.AssembledBranchReachesItsLabel : Prop :=
  ∀ (pc target : Nat), pc % 4 = 0 → target % 4 = 0 → pc < 2 ^ 31 → target < 2 ^ 31 →
    -131072 ≤ (target : Int) - ((pc : Int) + 4) → (target : Int) - ((pc : Int) + 4) ≤ 131068 →
    ∀ (s : State) (rs rt : RegIx), u32 s.pc = pc →
      (readReg s rs = readReg s rt →
          ∃ t, exec (.beq rs rt (branchOffset pc target)) s = .next t ∧ u32 t.pc = target)
        ∧ (readReg s rs ≠ readReg s rt →
          ∃ t, exec (.bne rs rt (branchOffset pc target)) s = .next t ∧ u32 t.pc = target)
end

