-- ==== Sys2Proof/Laws/Encoding.lean ====
section
/-!
SUPPORT. The fields of the three kinds of word (R71 to R74), and that a word is made of its fields.
-/

namespace Sys2Proof

/-! ### The bits of a word built from fields -/

theorem getLsbD_wordR (rs rt rd : RegIx) (h : Shamt) (f : Sel) (i : Nat) :
    (wordR rs rt rd h f).getLsbD i =
      if i < 6 then f.getLsbD i else if i < 11 then h.getLsbD (i - 6) else if i < 16 then rd.getLsbD (i - 11)
      else if i < 21 then rt.getLsbD (i - 16) else if i < 26 then rs.getLsbD (i - 21) else false := by
  simp only [wordR, BitVec.getLsbD_append]
  grind

theorem getLsbD_wordI (op : Sel) (rs rt : RegIx) (imm : Imm16) (i : Nat) :
    (wordI op rs rt imm).getLsbD i =
      if i < 16 then imm.getLsbD i else if i < 21 then rt.getLsbD (i - 16) else if i < 26 then rs.getLsbD (i - 21)
      else op.getLsbD (i - 26) := by
  simp only [wordI, BitVec.getLsbD_append]
  grind

theorem getLsbD_wordJ (op : Sel) (a : Addr26) (i : Nat) :
    (wordJ op a).getLsbD i = if i < 26 then a.getLsbD i else op.getLsbD (i - 26) := by
  simp only [wordJ, BitVec.getLsbD_append]

/-! ### Fields of a word built from fields -/

@[simp] theorem fieldOpcode_wordR (rs rt rd : RegIx) (h : Shamt) (f : Sel) :
    fieldOpcode (wordR rs rt rd h f) = 0#6 := by
  ext i hi
  simp only [fieldOpcode, BitVec.getElem_extractLsb', getLsbD_wordR]
  grind

@[simp] theorem fieldRs_wordR (rs rt rd : RegIx) (h : Shamt) (f : Sel) :
    fieldRs (wordR rs rt rd h f) = rs := by
  ext i hi
  simp only [fieldRs, BitVec.getElem_extractLsb', getLsbD_wordR]
  grind

@[simp] theorem fieldRt_wordR (rs rt rd : RegIx) (h : Shamt) (f : Sel) :
    fieldRt (wordR rs rt rd h f) = rt := by
  ext i hi
  simp only [fieldRt, BitVec.getElem_extractLsb', getLsbD_wordR]
  grind

@[simp] theorem fieldRd_wordR (rs rt rd : RegIx) (h : Shamt) (f : Sel) :
    fieldRd (wordR rs rt rd h f) = rd := by
  ext i hi
  simp only [fieldRd, BitVec.getElem_extractLsb', getLsbD_wordR]
  grind

@[simp] theorem fieldShamt_wordR (rs rt rd : RegIx) (h : Shamt) (f : Sel) :
    fieldShamt (wordR rs rt rd h f) = h := by
  ext i hi
  simp only [fieldShamt, BitVec.getElem_extractLsb', getLsbD_wordR]
  grind

@[simp] theorem fieldFunct_wordR (rs rt rd : RegIx) (h : Shamt) (f : Sel) :
    fieldFunct (wordR rs rt rd h f) = f := by
  ext i hi
  simp only [fieldFunct, BitVec.getElem_extractLsb', getLsbD_wordR]
  grind

@[simp] theorem fieldOpcode_wordI (op : Sel) (rs rt : RegIx) (imm : Imm16) :
    fieldOpcode (wordI op rs rt imm) = op := by
  ext i hi
  simp only [fieldOpcode, BitVec.getElem_extractLsb', getLsbD_wordI]
  grind

@[simp] theorem fieldRs_wordI (op : Sel) (rs rt : RegIx) (imm : Imm16) :
    fieldRs (wordI op rs rt imm) = rs := by
  ext i hi
  simp only [fieldRs, BitVec.getElem_extractLsb', getLsbD_wordI]
  grind

@[simp] theorem fieldRt_wordI (op : Sel) (rs rt : RegIx) (imm : Imm16) :
    fieldRt (wordI op rs rt imm) = rt := by
  ext i hi
  simp only [fieldRt, BitVec.getElem_extractLsb', getLsbD_wordI]
  grind

@[simp] theorem fieldImm_wordI (op : Sel) (rs rt : RegIx) (imm : Imm16) :
    fieldImm (wordI op rs rt imm) = imm := by
  ext i hi
  simp only [fieldImm, BitVec.getElem_extractLsb', getLsbD_wordI]
  grind

@[simp] theorem fieldOpcode_wordJ (op : Sel) (a : Addr26) :
    fieldOpcode (wordJ op a) = op := by
  ext i hi
  simp only [fieldOpcode, BitVec.getElem_extractLsb', getLsbD_wordJ]
  grind

@[simp] theorem fieldAddr_wordJ (op : Sel) (a : Addr26) :
    fieldAddr (wordJ op a) = a := by
  ext i hi
  simp only [fieldAddr, BitVec.getElem_extractLsb', getLsbD_wordJ]
  grind

/-! ### A word built from its own fields -/

/-- A word of opcode 0 is the R-type word of its fields (R72). -/
theorem wordR_fields (w : Word) (h : fieldOpcode w = 0#6) :
    wordR (fieldRs w) (fieldRt w) (fieldRd w) (fieldShamt w) (fieldFunct w) = w := by
  refine BitVec.eq_of_getLsbD_eq fun i hi => ?_
  have ho : 26 ≤ i → w.getLsbD i = false := fun h26 => by
    have := congrArg (BitVec.getLsbD · (i - 26)) h
    simpa [fieldOpcode, show i - 26 < 6 by omega, show 26 + (i - 26) = i by omega] using this
  rw [getLsbD_wordR]
  simp only [fieldRs, fieldRt, fieldRd, fieldShamt, fieldFunct, BitVec.getLsbD_extractLsb']
  grind

/-- Every word is the I-type word of its fields (R73). -/
theorem wordI_fields (w : Word) : wordI (fieldOpcode w) (fieldRs w) (fieldRt w) (fieldImm w) = w := by
  refine BitVec.eq_of_getLsbD_eq fun i hi => ?_
  rw [getLsbD_wordI]
  simp only [fieldOpcode, fieldRs, fieldRt, fieldImm, BitVec.getLsbD_extractLsb']
  grind

/-- Every word is the J-type word of its fields (R74). -/
theorem wordJ_fields (w : Word) : wordJ (fieldOpcode w) (fieldAddr w) = w := by
  refine BitVec.eq_of_getLsbD_eq fun i hi => ?_
  rw [getLsbD_wordJ]
  simp only [fieldOpcode, fieldAddr, BitVec.getLsbD_extractLsb']
  grind

/-! ### Everything the decoder can answer -/

/-- One case of a chain of tests. -/
theorem of_ite_some {c : Prop} [Decidable c] {a i : Instr} {e : Option Instr}
    (h : (if c then some a else e) = some i) : (c ∧ i = a) ∨ e = some i := by
  split at h
  · next hc => exact .inl ⟨hc, (Option.some.inj h).symm⟩
  · exact .inr h

/-- What an R-type word decodes to, with its funct, at the default map. -/
theorem decodeR_cases {w : Word} {i : Instr} (h : decodeR defaultOpcodeMap w = some i) :
    (fieldFunct w = 0x20#6 ∧ i = .add (fieldRd w) (fieldRs w) (fieldRt w))
      ∨ (fieldFunct w = 0x22#6 ∧ i = .sub (fieldRd w) (fieldRs w) (fieldRt w))
      ∨ (fieldFunct w = 0x24#6 ∧ i = .and (fieldRd w) (fieldRs w) (fieldRt w))
      ∨ (fieldFunct w = 0x25#6 ∧ i = .or (fieldRd w) (fieldRs w) (fieldRt w))
      ∨ (fieldFunct w = 0x2A#6 ∧ i = .slt (fieldRd w) (fieldRs w) (fieldRt w))
      ∨ (fieldFunct w = 0x00#6 ∧ i = .sll (fieldRd w) (fieldRt w) (fieldShamt w))
      ∨ (fieldFunct w = 0x02#6 ∧ i = .srl (fieldRd w) (fieldRt w) (fieldShamt w))
      ∨ (fieldFunct w = 0x08#6 ∧ i = .jr (fieldRs w)) := by
  simp only [decodeR, defaultOpcodeMap] at h
  exact
    (of_ite_some h).imp_right fun h =>
    (of_ite_some h).imp_right fun h =>
    (of_ite_some h).imp_right fun h =>
    (of_ite_some h).imp_right fun h =>
    (of_ite_some h).imp_right fun h =>
    (of_ite_some h).imp_right fun h =>
    (of_ite_some h).imp_right fun h =>
    (of_ite_some h).resolve_right (by simp)

/-- What an I-type word decodes to, with its opcode, at the default map. -/
theorem decodeI_cases {w : Word} {i : Instr} (h : decodeI defaultOpcodeMap w = some i) :
    (fieldOpcode w = 0x08#6 ∧ i = .addi (fieldRt w) (fieldRs w) (fieldImm w))
      ∨ (fieldOpcode w = 0x23#6 ∧ i = .lw (fieldRt w) (fieldRs w) (fieldImm w))
      ∨ (fieldOpcode w = 0x2B#6 ∧ i = .sw (fieldRt w) (fieldRs w) (fieldImm w))
      ∨ (fieldOpcode w = 0x04#6 ∧ i = .beq (fieldRs w) (fieldRt w) (fieldImm w))
      ∨ (fieldOpcode w = 0x05#6 ∧ i = .bne (fieldRs w) (fieldRt w) (fieldImm w)) := by
  simp only [decodeI, defaultOpcodeMap] at h
  exact
    (of_ite_some h).imp_right fun h =>
    (of_ite_some h).imp_right fun h =>
    (of_ite_some h).imp_right fun h =>
    (of_ite_some h).imp_right fun h =>
    (of_ite_some h).resolve_right (by simp)

/-- What a J-type word decodes to, with its opcode, at the default map. -/
theorem decodeJ_cases {w : Word} {i : Instr} (h : decodeJ defaultOpcodeMap w = some i) :
    (fieldOpcode w = 0x02#6 ∧ i = .j (fieldAddr w)) ∨ (fieldOpcode w = 0x03#6 ∧ i = .jal (fieldAddr w)) := by
  simp only [decodeJ, defaultOpcodeMap] at h
  exact
    (of_ite_some h).imp_right fun h =>
    (of_ite_some h).resolve_right (by simp)

/-- The format a decoded word has, by its opcode (R75). -/
theorem decode_cases {w : Word} {i : Instr} (h : decode w = some i) :
    (fieldOpcode w = 0#6 ∧ decodeR defaultOpcodeMap w = some i) ∨ decodeJ defaultOpcodeMap w = some i
      ∨ decodeI defaultOpcodeMap w = some i := by
  simp only [decode, decodeWith] at h
  split at h
  · next h0 => exact .inl ⟨h0, h⟩
  · split at h
    · exact .inr (.inl h)
    · exact .inr (.inr h)

/-! ### Masks -/

/-- The selecting bits of an R-type word (R79). -/
theorem wordR_selects (rs rt rd : RegIx) (h : Shamt) (f : Sel) :
    wordR rs rt rd h f &&& 0xFC00003F#32 = wordR 0#5 0#5 0#5 0#5 f := by
  refine BitVec.eq_of_getLsbD_eq fun i hi => ?_
  simp only [BitVec.getLsbD_and, getLsbD_wordR]
  interval_cases i <;> simp

/-- The selecting bits of an I-type word (R79). -/
theorem wordI_selects (op : Sel) (rs rt : RegIx) (imm : Imm16) :
    wordI op rs rt imm &&& 0xFC000000#32 = wordI op 0#5 0#5 0#16 := by
  refine BitVec.eq_of_getLsbD_eq fun i hi => ?_
  simp only [BitVec.getLsbD_and, getLsbD_wordI]
  interval_cases i <;> simp

/-- The selecting bits of a J-type word (R79). -/
theorem wordJ_selects (op : Sel) (a : Addr26) : wordJ op a &&& 0xFC000000#32 = wordJ op 0#26 := by
  refine BitVec.eq_of_getLsbD_eq fun i hi => ?_
  simp only [BitVec.getLsbD_and, getLsbD_wordJ]
  interval_cases i <;> simp

/-- The bits an instruction with `rd`, `rs` and `rt` uses (R80). -/
theorem wordR_uses_regs (rs rt rd : RegIx) (h : Shamt) (f : Sel) :
    wordR rs rt rd h f &&& 0xFFFFF83F#32 = wordR rs rt rd 0#5 f := by
  refine BitVec.eq_of_getLsbD_eq fun i hi => ?_
  simp only [BitVec.getLsbD_and, getLsbD_wordR]
  interval_cases i <;> simp

/-- The bits a shift uses (R80). -/
theorem wordR_uses_shift (rs rt rd : RegIx) (h : Shamt) (f : Sel) :
    wordR rs rt rd h f &&& 0xFC1FFFFF#32 = wordR 0#5 rt rd h f := by
  refine BitVec.eq_of_getLsbD_eq fun i hi => ?_
  simp only [BitVec.getLsbD_and, getLsbD_wordR]
  interval_cases i <;> simp

/-- The bits `jr` uses (R80). -/
theorem wordR_uses_jr (rs rt rd : RegIx) (h : Shamt) (f : Sel) :
    wordR rs rt rd h f &&& 0xFFE0003F#32 = wordR rs 0#5 0#5 0#5 f := by
  refine BitVec.eq_of_getLsbD_eq fun i hi => ?_
  simp only [BitVec.getLsbD_and, getLsbD_wordR]
  interval_cases i <;> simp

end Sys2Proof
end

