-- ==== Sys2Proof/Laws/Memory.lean ====
section
/-!
SUPPORT. The laws of one memory array: read after write, and that every operation keeps the canonical form and the
bound on listed addresses.
-/

namespace Sys2Proof.Machine

/-- A memory lists no address from `n` on. -/
abbrev Memory.below (n : Nat) (m : Memory) : Prop := ∀ c ∈ m, c.1 < n

@[simp] theorem memGet_nil (a : Nat) : memGet [] a = Memory.unlisted := rfl

/-- An address that no entry has reads as unlisted. -/
theorem memGet_of_absent {m : Memory} {a : Nat} (h : ∀ c ∈ m, c.1 ≠ a) : memGet m a = Memory.unlisted := by
  induction m with
  | nil => rfl
  | cons c m ih =>
    rw [memGet, if_neg (h c (by simp))]
    exact ih fun d hd => h d (by simp [hd])

theorem memGet_filter_ne (m : Memory) {a b : Nat} (h : b ≠ a) :
    memGet (m.filter (fun c => c.1 != a)) b = memGet m b := by
  induction m with
  | nil => rfl
  | cons c m ih =>
    by_cases hc : c.1 = a
    · simp [hc, memGet, Ne.symm h, ih]
    · simp [hc, memGet, ih]

theorem memGet_memInsert_self (m : Memory) (a : Nat) (v : Byte) (h : ∀ c ∈ m, c.1 ≠ a) :
    memGet (memInsert a v m) a = v := by
  induction m with
  | nil => simp [memInsert, memGet]
  | cons c m ih =>
    unfold memInsert
    split
    · simp [memGet]
    · rw [memGet, if_neg (h c (by simp)), ih fun d hd => h d (by simp [hd])]

theorem memGet_memInsert_ne (m : Memory) {a b : Nat} (v : Byte) (h : b ≠ a) :
    memGet (memInsert a v m) b = memGet m b := by
  induction m with
  | nil => simp [memInsert, memGet, Ne.symm h]
  | cons c m ih =>
    unfold memInsert
    split
    · rw [memGet, if_neg (Ne.symm h)]
    · simp [memGet, ih]

theorem filter_absent (m : Memory) (a : Nat) : ∀ c ∈ m.filter (fun c => c.1 != a), c.1 ≠ a := by
  simp

/-- A read after a write of one byte: the byte written at its address, every other byte as before. -/
theorem memGet_memSet (m : Memory) (a b : Nat) (v : Byte) :
    memGet (memSet m a v) b = if b = a then v else memGet m b := by
  unfold memSet
  by_cases h : b = a
  · subst h
    by_cases hv : v = Memory.unlisted
    · simp only [hv, if_true]; exact memGet_of_absent (filter_absent m b)
    · simp only [hv, if_false, if_true]; exact memGet_memInsert_self _ _ _ (filter_absent m b)
  · by_cases hv : v = Memory.unlisted
    · simp only [hv, if_true, h, if_false]; exact memGet_filter_ne m h
    · simp only [hv, h, if_false]; rw [memGet_memInsert_ne _ _ h, memGet_filter_ne m h]

theorem mem_memInsert {m : Memory} {a : Nat} {v : Byte} {c : Host.Cell} :
    c ∈ memInsert a v m ↔ c = (a, v) ∨ c ∈ m := by
  induction m with
  | nil => simp [memInsert]
  | cons d m ih =>
    unfold memInsert
    split
    · simp
    · simp only [List.mem_cons, ih]; tauto

theorem memInsert_pairwise {m : Memory} {a : Nat} {v : Byte}
    (hp : m.Pairwise (fun c d => c.1 < d.1)) (ha : ∀ c ∈ m, c.1 ≠ a) :
    (memInsert a v m).Pairwise (fun c d => c.1 < d.1) := by
  induction m with
  | nil => simp [memInsert]
  | cons c m ih =>
    have hc := List.pairwise_cons.mp hp
    unfold memInsert
    split
    · next hlt =>
      refine List.pairwise_cons.mpr ⟨fun d hd => ?_, hp⟩
      rcases List.mem_cons.mp hd with rfl | hd
      · exact hlt
      · exact Nat.lt_trans hlt (hc.1 d hd)
    · next hle =>
      refine List.pairwise_cons.mpr ⟨fun d hd => ?_, ih hc.2 fun d hd => ha d (by simp [hd])⟩
      rcases mem_memInsert.mp hd with rfl | hd
      · have := ha c (by simp); simp only; omega
      · exact hc.1 d hd

/-- Writing one byte keeps the canonical form. -/
theorem memSet_wf {m : Memory} (a : Nat) (v : Byte) (h : Memory.wf m) : Memory.wf (memSet m a v) := by
  have hf : Memory.wf (m.filter (fun c => c.1 != a)) :=
    ⟨h.1.filter _, fun c hc => h.2 c (List.mem_filter.mp hc).1⟩
  unfold memSet
  by_cases hv : v = Memory.unlisted
  · simpa only [hv, if_true] using hf
  · simp only [hv, if_false]
    refine ⟨memInsert_pairwise hf.1 (filter_absent m a), fun c hc => ?_⟩
    rcases mem_memInsert.mp hc with rfl | hc
    · exact hv
    · exact hf.2 c hc

/-- Writing one byte below a bound keeps the bound. -/
theorem memSet_below {m : Memory} {a n : Nat} (v : Byte) (ha : a < n) (h : Memory.below n m) :
    Memory.below n (memSet m a v) := by
  intro c hc
  unfold memSet at hc
  by_cases hv : v = Memory.unlisted
  · simp only [hv, if_true] at hc; exact h c (List.mem_filter.mp hc).1
  · simp only [hv, if_false] at hc
    rcases mem_memInsert.mp hc with rfl | hc
    · exact ha
    · exact h c (List.mem_filter.mp hc).1

/-- Writing a word keeps the canonical form, in either byte order. -/
theorem writeWordIn_wf (o : ByteOrder) {m : Memory} (a : Nat) (v : Word) (h : Memory.wf m) :
    Memory.wf (writeWordIn o m a v) :=
  memSet_wf _ _ (memSet_wf _ _ (memSet_wf _ _ (memSet_wf _ _ h)))

/-- Writing a word keeps the canonical form. -/
theorem writeWord_wf {m : Memory} (a : Nat) (v : Word) (h : Memory.wf m) : Memory.wf (writeWord m a v) :=
  writeWordIn_wf _ a v h

/-- Writing a word below a bound keeps the bound. -/
theorem writeWord_below {m : Memory} {a n : Nat} (v : Word) (ha : a + 4 ≤ n) (h : Memory.below n m) :
    Memory.below n (writeWord m a v) :=
  memSet_below _ (by omega) (memSet_below _ (by omega) (memSet_below _ (by omega) (memSet_below _ (by omega) h)))

/-- Installing a program keeps the canonical form. -/
theorem installWords_wf {m : Memory} (k : Nat) (ws : List Word) (h : Memory.wf m) :
    Memory.wf (installWords m k ws) := by
  induction ws generalizing m k with
  | nil => exact h
  | cons w ws ih => exact ih _ (writeWord_wf _ _ h)

/-- Both arrays at power-on are in canonical form. -/
theorem reset_memory_wf : Memory.wf State.reset.imem ∧ Memory.wf State.reset.dmem := by decide

/-- Taking a word apart into bytes and putting them together gives the word, in either byte order. -/
theorem bytesWord_wordBytes (o : ByteOrder) (v : Word) :
    bytesWord o (wordBytes o v).1 (wordBytes o v).2.1 (wordBytes o v).2.2.1 (wordBytes o v).2.2.2 = v := by
  have e : v.extractLsb' 24 8 ++ v.extractLsb' 16 8 ++ v.extractLsb' 8 8 ++ v.extractLsb' 0 8 = v := by
    ext i hi
    simp only [BitVec.getElem_append, BitVec.getElem_extractLsb']
    split
    · simp [BitVec.getLsbD_eq_getElem hi]
    · split
      · rw [← BitVec.getLsbD_eq_getElem hi]; congr 1; omega
      · split <;> (rw [← BitVec.getLsbD_eq_getElem hi]; congr 1; omega)
  cases o <;> exact e

/-- Every byte outside a written word is as before. -/
theorem memGet_writeWord_ne (m : Memory) {a b : Nat} (v : Word) (h : b < a ∨ a + 4 ≤ b) :
    memGet (writeWord m a v) b = memGet m b := by
  simp only [writeWord, writeWordIn, memGet_memSet]
  rw [if_neg (by omega), if_neg (by omega), if_neg (by omega), if_neg (by omega)]

/-- The last byte written at an address that the other three writes of its word leave alone. -/
theorem memGet_writeWordIn (o : ByteOrder) (m : Memory) (a : Nat) (v : Word) :
    memGet (writeWordIn o m a v) a = (wordBytes o v).1 ∧ memGet (writeWordIn o m a v) (a + 1) = (wordBytes o v).2.1
      ∧ memGet (writeWordIn o m a v) (a + 2) = (wordBytes o v).2.2.1
      ∧ memGet (writeWordIn o m a v) (a + 3) = (wordBytes o v).2.2.2 := by
  simp [writeWordIn, memGet_memSet]

/-- Reading the word just written. -/
theorem readWord_writeWord_self (m : Memory) (a : Nat) (v : Word) : readWord (writeWord m a v) a = v := by
  obtain ⟨h0, h1, h2, h3⟩ := memGet_writeWordIn Config.byteOrder m a v
  unfold readWord writeWord readWordIn
  rw [h0, h1, h2, h3, bytesWord_wordBytes]

/-- A word that does not overlap the one written reads as before. -/
theorem readWord_writeWord_ne (m : Memory) {a b : Nat} (v : Word) (h : b + 4 ≤ a ∨ a + 4 ≤ b) :
    readWord (writeWord m a v) b = readWord m b := by
  unfold readWord readWordIn
  rw [memGet_writeWord_ne, memGet_writeWord_ne, memGet_writeWord_ne, memGet_writeWord_ne] <;> omega

/-- A word of an array with nothing listed is 0: the reset contents (R39). -/
@[simp] theorem readWord_nil (a : Nat) : readWord [] a = 0#32 := by
  simp [readWord, readWordIn, memGet, Memory.unlisted, Config.byteOrder, bytesWord]

/-- Words of memories that read the same are the same. -/
theorem readWord_congr {m m' : Memory} (h : ∀ a, memGet m' a = memGet m a) (a : Nat) : readWord m' a = readWord m a := by
  simp only [readWord, readWordIn, h]

end Sys2Proof.Machine
end

