-- ==== Sys2Proof/Laws/State.lean ====
section
/-!
SUPPORT. One lemma per field per update of the state, so that no later proof unfolds a record update.
-/

namespace Sys2Proof.Machine

/-- The two readings of a pattern, in the library's words. -/
@[simp] theorem u32_eq_toNat (v : Word) : u32 v = v.toNat := rfl
@[simp] theorem s32_eq_toInt (v : Word) : s32 v = v.toInt := rfl

@[simp] theorem advance_pc (s : State) : (advance s).pc = s.pc + 4#32 := rfl
@[simp] theorem advance_regs (s : State) : (advance s).regs = s.regs := rfl
@[simp] theorem advance_imem (s : State) : (advance s).imem = s.imem := rfl
@[simp] theorem advance_dmem (s : State) : (advance s).dmem = s.dmem := rfl
@[simp] theorem advance_loaded (s : State) : (advance s).loaded = s.loaded := rfl
@[simp] theorem advance_progLen (s : State) : (advance s).progLen = s.progLen := rfl

@[simp] theorem jumpTo_pc (s : State) (t : Word) : (jumpTo s t).pc = t := rfl
@[simp] theorem jumpTo_regs (s : State) (t : Word) : (jumpTo s t).regs = s.regs := rfl
@[simp] theorem jumpTo_imem (s : State) (t : Word) : (jumpTo s t).imem = s.imem := rfl
@[simp] theorem jumpTo_dmem (s : State) (t : Word) : (jumpTo s t).dmem = s.dmem := rfl
@[simp] theorem jumpTo_loaded (s : State) (t : Word) : (jumpTo s t).loaded = s.loaded := rfl
@[simp] theorem jumpTo_progLen (s : State) (t : Word) : (jumpTo s t).progLen = s.progLen := rfl

@[simp] theorem writeReg_zero (s : State) (v : Word) : writeReg s 0#5 v = s := if_pos rfl
@[simp] theorem writeReg_pc (s : State) (r : RegIx) (v : Word) : (writeReg s r v).pc = s.pc := by
  unfold writeReg; split <;> rfl
@[simp] theorem writeReg_imem (s : State) (r : RegIx) (v : Word) : (writeReg s r v).imem = s.imem := by
  unfold writeReg; split <;> rfl
@[simp] theorem writeReg_dmem (s : State) (r : RegIx) (v : Word) : (writeReg s r v).dmem = s.dmem := by
  unfold writeReg; split <;> rfl
@[simp] theorem writeReg_loaded (s : State) (r : RegIx) (v : Word) : (writeReg s r v).loaded = s.loaded := by
  unfold writeReg; split <;> rfl
@[simp] theorem writeReg_progLen (s : State) (r : RegIx) (v : Word) : (writeReg s r v).progLen = s.progLen := by
  unfold writeReg; split <;> rfl

/-- Reads depend on the register file alone. -/
theorem readReg_congr {s t : State} (h : t.regs = s.regs) (r : RegIx) : readReg t r = readReg s r := by
  simp only [readReg, h]

@[simp] theorem readReg_zero (s : State) : readReg s 0#5 = 0#32 := if_pos rfl
@[simp] theorem readReg_advance (s : State) (r : RegIx) : readReg (advance s) r = readReg s r := rfl
@[simp] theorem readReg_jumpTo (s : State) (t : Word) (r : RegIx) : readReg (jumpTo s t) r = readReg s r := rfl
@[simp] theorem readReg_withDmem (s : State) (m : Memory) (r : RegIx) :
    readReg { s with dmem := m } r = readReg s r := rfl

/-- Distinct indices have distinct numbers. -/
theorem regIx_toNat_ne {d r : RegIx} (h : r ≠ d) : d.toNat ≠ r.toNat :=
  fun e => h (BitVec.eq_of_toNat_eq e.symm)

/-- The register file's law (R22, R23, R25): every register reads as before but the one written, and register 0 reads 0
always. -/
theorem readReg_writeReg (s : State) (d r : RegIx) (v : Word) :
    readReg (writeReg s d v) r = if r = d ∧ d ≠ 0#5 then v else readReg s r := by
  by_cases hd : d = 0#5
  · simp [hd]
  · simp only [readReg, writeReg, if_neg hd]
    by_cases hr : r = 0#5
    · subst hr; simp [Ne.symm hd]
    · by_cases h : r = d
      · subst h; simp [hr]
      · simp [hr, h, regIx_toNat_ne h]

/-- Slot 0 of the register file is never written. -/
@[simp] theorem writeReg_slot_zero (s : State) (d : RegIx) (v : Word) : (writeReg s d v).regs[0] = s.regs[0] := by
  unfold writeReg
  split
  · rfl
  · next h =>
    have hn : d.toNat ≠ 0 := regIx_toNat_ne (d := d) (r := 0#5) (Ne.symm h)
    simp [hn]

end Sys2Proof.Machine
end

