-- ==== Sys2Proof/Laws/Ops.lean ====
section
/-!
SUPPORT. One lemma per shared operation that says once everything it can do; proofs cite these and unfold no operation.
-/

namespace Sys2Proof.Machine

/-! ### The relations between two states -/

theorem SameRegs.refl (s : State) : SameRegs s s := fun _ => rfl
theorem SameData.refl (s : State) : SameData s s := fun _ => rfl
theorem SameProgram.refl (s : State) : SameProgram s s := ⟨fun _ => rfl, rfl, rfl⟩

/-- Two states with the same program, `prog_len` and `loaded` fields. -/
theorem SameProgram.of_eq {s t : State} (hi : t.imem = s.imem) (hp : t.progLen = s.progLen) (hl : t.loaded = s.loaded) :
    SameProgram s t := ⟨fun _ => by rw [hi], hp, hl⟩

theorem SameRegsBut.of_writeReg (s : State) (d : RegIx) (v : Word) : SameRegsBut d s (writeReg s d v) := by
  intro r hr; rw [readReg_writeReg, if_neg fun h => hr h.1]

/-! ### Ending an instruction -/

/-- `writeBack` always answers a next state, in which only the destination and the pc may differ. -/
theorem writeBack_writesOnly (d : RegIx) (v : Word) (s : State) :
    ∃ t, writeBack d v s = .next t ∧ WritesOnly d v s t := by
  refine ⟨_, rfl, ?_, ?_, ?_, ?_, ?_⟩
  · rw [readReg_advance, readReg_writeReg]
    by_cases h : d = 0#5
    · simp [h]
    · simp [h]
  · exact SameRegsBut.of_writeReg s d v
  · intro a; simp
  · exact SameProgram.of_eq (by simp) (by simp) (by simp)
  · simp

/-- What a next state of `writeBack` is. -/
theorem writeBack_next {d : RegIx} {v : Word} {s t : State} (h : writeBack d v s = .next t) :
    t = advance (writeReg s d v) := by
  simpa [writeBack, eq_comm] using h

/-- Setting the pc changes nothing else. -/
theorem jumpTo_jumpsOnly (s : State) (target : Word) : JumpsOnly target s (jumpTo s target) :=
  ⟨rfl, fun _ => rfl, fun _ => rfl, fun _ => rfl, rfl, rfl⟩

/-- Auto-advance changes nothing but the pc. -/
theorem advance_jumpsOnly (s : State) : JumpsOnly (s.pc + 4#32) s (advance s) :=
  ⟨rfl, fun _ => rfl, fun _ => rfl, fun _ => rfl, rfl, rfl⟩

/-- A raised fault is no next state. -/
@[simp] theorem raise_ne_next (f : Fault) (t : State) : raise f ≠ .next t := by simp [raise]

/-- A raised fault is no refusal. -/
@[simp] theorem raise_ne_refused (f : Fault) (r : Refusal) : raise f ≠ .refused r := by simp [raise]

/-! ### The data-memory ports -/

/-- The checks pass exactly on the aligned addresses of data memory. -/
theorem dataAddress_ok_iff (ea : Int) (a : Nat) :
    dataAddress ea = .ok a ↔ ea % 4 = 0 ∧ 0 ≤ ea ∧ ea < Config.dmemBytes ∧ a = ea.toNat := by
  unfold dataAddress
  split
  · next h => simp [h]
  · next h =>
    split
    · simp; omega
    · simp only [Except.ok.injEq]; omega

/-- On an aligned address of data memory the checks pass. -/
theorem dataAddress_ok {ea : Int} (h4 : ea % 4 = 0) (h0 : 0 ≤ ea) (hn : ea < Config.dmemBytes) :
    dataAddress ea = .ok ea.toNat := (dataAddress_ok_iff ea _).mpr ⟨h4, h0, hn, rfl⟩

/-- An address that passes the checks is the address of a whole word of data memory. -/
theorem dataAddress_bound {ea : Int} {a : Nat} (h : dataAddress ea = .ok a) : a % 4 = 0 ∧ a + 4 ≤ Config.dmemBytes := by
  have := (dataAddress_ok_iff ea a).mp h
  have hd : Config.dmemBytes = 512 := rfl
  omega

/-- What a fault of the checks is. -/
theorem dataAddress_error {ea : Int} {f : Fault} (h : dataAddress ea = .error f) :
    (ea % 4 ≠ 0 ∧ f = .memoryAlignmentError ea)
      ∨ (ea % 4 = 0 ∧ (ea < 0 ∨ (Config.dmemBytes : Int) ≤ ea) ∧ f = .memoryRangeError ea) := by
  unfold dataAddress at h
  split at h
  · next h4 => exact .inl ⟨h4, by simpa [eq_comm] using h⟩
  · next h4 =>
    split at h
    · next hr => exact .inr ⟨by omega, hr, by simpa [eq_comm] using h⟩
    · exact absurd h (by simp)

/-- A load that does not fault reads the word at its address. -/
theorem memRead_ok {m : Memory} {ea : Int} {v : Word} (h : memRead m ea = .ok v) :
    ∃ a, dataAddress ea = .ok a ∧ v = readWord m a := by
  unfold memRead at h
  split at h
  · exact absurd h (by simp)
  · next a ha => exact ⟨a, ha, by simpa [eq_comm] using h⟩

/-- A store that does not fault writes the word at its address. -/
theorem memWrite_ok {m m' : Memory} {ea : Int} {v : Word} (h : memWrite m ea v = .ok m') :
    ∃ a, dataAddress ea = .ok a ∧ m' = writeWord m a v := by
  unfold memWrite at h
  split at h
  · exact absurd h (by simp)
  · next a ha => exact ⟨a, ha, by simpa [eq_comm] using h⟩

/-- The write port keeps the canonical form. -/
theorem memWrite_wf {m m' : Memory} {ea : Int} {v : Word} (h : memWrite m ea v = .ok m') (hm : Memory.wf m) :
    Memory.wf m' := by
  obtain ⟨a, -, rfl⟩ := memWrite_ok h
  exact writeWord_wf a v hm

/-! ### Branches -/

/-- Every way a branch can end. -/
theorem branchWhen_cases (taken : Bool) (imm : Imm16) (s : State) :
    (taken = false ∧ branchWhen taken imm s = .next (advance s))
      ∨ (taken = true ∧ branchTarget s.pc imm < 0
          ∧ branchWhen taken imm s = .fault (.pcOutOfRange (branchTarget s.pc imm)))
      ∨ (taken = true ∧ 0 ≤ branchTarget s.pc imm
          ∧ branchWhen taken imm s = .next (jumpTo s (BitVec.ofInt 32 (branchTarget s.pc imm)))) := by
  cases taken
  · exact .inl ⟨rfl, rfl⟩
  · by_cases h : branchTarget s.pc imm < 0
    · exact .inr (.inl ⟨rfl, h, by simp [branchWhen, h, raise]⟩)
    · exact .inr (.inr ⟨rfl, by omega, by simp [branchWhen, h]⟩)

/-! ### The step -/

/-- Every way a front can end, with the checks that led there (R100, R203). -/
theorem front_cases (s : State) :
    (s.loaded = false ∧ front s = .error .notLoaded)
      ∨ (s.loaded = true ∧ s.progLen * 4 ≤ u32 s.pc ∧ front s = .completed)
      ∨ (s.loaded = true ∧ u32 s.pc < s.progLen * 4 ∧ u32 s.pc % 4 ≠ 0 ∧ front s = .error (.pcMisaligned s.pc))
      ∨ (s.loaded = true ∧ u32 s.pc < s.progLen * 4 ∧ u32 s.pc % 4 = 0 ∧ front s = dispatchWord (iFetch s.imem s.pc)) := by
  unfold front
  by_cases hl : s.loaded = false
  · exact .inl ⟨hl, if_pos hl⟩
  · rw [if_neg hl]
    replace hl : s.loaded = true := by simpa using hl
    by_cases hp : s.progLen * 4 ≤ u32 s.pc
    · exact .inr (.inl ⟨hl, hp, if_pos hp⟩)
    · rw [if_neg hp]
      by_cases ha : u32 s.pc % 4 ≠ 0
      · exact .inr (.inr (.inl ⟨hl, by omega, ha, if_pos ha⟩))
      · exact .inr (.inr (.inr ⟨hl, by omega, by omega, if_neg ha⟩))

/-- Every way a fetched word can be dispatched (R82, R107). -/
theorem dispatchWord_cases (w : Word) :
    (w = 0#32 ∧ dispatchWord w = .halted)
      ∨ (w ≠ 0#32 ∧ decode w = none ∧ dispatchWord w = .error (.reservedInstruction w))
      ∨ (w ≠ 0#32 ∧ ∃ i, decode w = some i ∧ dispatchWord w = .execute w i) := by
  unfold dispatchWord
  by_cases hw : w = 0#32
  · exact .inl ⟨hw, if_pos hw⟩
  · rw [if_neg hw]
    cases hd : decode w with
    | none => exact .inr (.inl ⟨hw, rfl, rfl⟩)
    | some i => exact .inr (.inr ⟨hw, i, rfl, rfl⟩)

/-- Placing a word keeps the canonical form of both arrays. -/
theorem placeWord_wf {s : State} (w : Word) (hi : Memory.wf s.imem) (hd : Memory.wf s.dmem) :
    Memory.wf (placeWord s w).imem ∧ Memory.wf (placeWord s w).dmem :=
  ⟨writeWord_wf _ w hi, hd⟩

/-- A step that answers a next state either found a stop and left the state, or executed an instruction. -/
theorem step_next_cases {s t : State} (h : step s = .next t) :
    t = s ∨ ∃ w i, front s = .execute w i ∧ exec i s = .next t := by
  unfold step at h
  split at h
  · exact absurd h (raise_ne_next _ _)
  · exact .inl (by simpa [completedOutcome, eq_comm] using h)
  · exact .inl (by simpa [haltedOutcome, eq_comm] using h)
  · next w i hf => exact .inr ⟨w, i, hf, h⟩

end Sys2Proof.Machine
end

