-- ==== Sys2Proof/Laws/Exec.lean ====
section
/-!
SUPPORT. Everything an instruction and a step can do, said once: the inversion of `exec`, what follows for the program,
and the front of a step by its checks.
-/

namespace Sys2Proof.Machine

/-- The four ways an instruction completes: it writes its destination and auto-advances; it stores a word and
auto-advances; it only sets the pc; or it links and sets the pc. -/
theorem exec_cases {i : Instr} {s t : State} (h : exec i s = .next t) :
    (∃ d v, destination i = some d ∧ t = advance (writeReg s d v) ∧ ∀ a, i ≠ .jal a)
      ∨ (∃ rt rs imm a, i = .sw rt rs imm ∧ dataAddress (effectiveAddress (readReg s rs) imm) = .ok a
          ∧ t = advance { s with dmem := writeWord s.dmem a (readReg s rt) })
      ∨ (∃ target, destination i = none ∧ t = jumpTo s target ∧ ∀ rt rs imm, i ≠ .sw rt rs imm)
      ∨ ∃ a, i = .jal a ∧ t = jumpTo (writeReg s linkReg (linkAddress s.pc)) (jumpTarget s.pc a) := by
  cases i
  case lw rt rs imm =>
    change execLw rt rs imm s = _ at h
    unfold execLw at h
    split at h
    · exact absurd h (raise_ne_next _ _)
    · exact .inl ⟨_, _, rfl, writeBack_next h, by simp⟩
  case sw rt rs imm =>
    change execSw rt rs imm s = _ at h
    unfold execSw at h
    split at h
    · exact absurd h (raise_ne_next _ _)
    · next m e =>
      obtain ⟨a, ha, rfl⟩ := memWrite_ok e
      exact .inr (.inl ⟨_, _, _, a, rfl, ha, (Host.Outcome.next.inj h).symm⟩)
  case beq rs rt imm =>
    change branchWhen _ imm s = _ at h
    rcases branchWhen_cases (equal (readReg s rs) (readReg s rt)) imm s with ⟨_, e⟩ | ⟨_, _, e⟩ | ⟨_, _, e⟩ <;> rw [e] at h
    · exact .inr (.inr (.inl ⟨_, rfl, (Host.Outcome.next.inj h).symm, by simp⟩))
    · simp at h
    · exact .inr (.inr (.inl ⟨_, rfl, (Host.Outcome.next.inj h).symm, by simp⟩))
  case bne rs rt imm =>
    change branchWhen _ imm s = _ at h
    rcases branchWhen_cases (!equal (readReg s rs) (readReg s rt)) imm s with ⟨_, e⟩ | ⟨_, _, e⟩ | ⟨_, _, e⟩ <;> rw [e] at h
    · exact .inr (.inr (.inl ⟨_, rfl, (Host.Outcome.next.inj h).symm, by simp⟩))
    · simp at h
    · exact .inr (.inr (.inl ⟨_, rfl, (Host.Outcome.next.inj h).symm, by simp⟩))
  case j | jr => exact .inr (.inr (.inl ⟨_, rfl, (Host.Outcome.next.inj h).symm, by simp⟩))
  case jal => exact .inr (.inr (.inr ⟨_, rfl, (Host.Outcome.next.inj h).symm⟩))
  all_goals exact .inl ⟨_, _, rfl, writeBack_next h, by simp⟩

/-- No instruction touches the program. -/
theorem exec_program {i : Instr} {s t : State} (h : exec i s = .next t) :
    t.imem = s.imem ∧ t.progLen = s.progLen ∧ t.loaded = s.loaded := by
  rcases exec_cases h with ⟨d, v, -, rfl, -⟩ | ⟨rt, rs, imm, a, -, -, rfl⟩ | ⟨_, -, rfl, -⟩ | ⟨a, -, rfl⟩ <;> simp

/-- No instruction is refused. -/
theorem exec_ne_refused (i : Instr) (s : State) (r : Refusal) : exec i s ≠ .refused r := by
  cases i
  case lw => simp only [exec, execLw]; split <;> simp [raise, writeBack]
  case sw => simp only [exec, execSw]; split <;> simp [raise]
  case beq | bne => simp only [exec, execBeq, execBne, branchWhen]; (repeat' split) <;> simp [raise]
  all_goals simp [exec, execAdd, execSub, execAnd, execOr, execSlt, execSll, execSrl, execAddi, execJ, execJal, execJr, writeBack]

/-- No step touches the program. -/
theorem step_program {s t : State} (h : step s = .next t) :
    t.imem = s.imem ∧ t.progLen = s.progLen ∧ t.loaded = s.loaded := by
  rcases step_next_cases h with rfl | ⟨_, _, -, h⟩
  · exact ⟨rfl, rfl, rfl⟩
  · exact exec_program h

/-- A loaded machine at or past the program's end is completed. -/
theorem front_completed {s : State} (h : s.loaded = true) (hp : s.progLen * 4 ≤ u32 s.pc) : front s = .completed := by
  simp only [front, h, Bool.true_eq_false, if_false, if_pos hp]

/-- A loaded machine inside the program at a misaligned pc. -/
theorem front_misaligned {s : State} (h : s.loaded = true) (hp : u32 s.pc < s.progLen * 4) (ha : u32 s.pc % 4 ≠ 0) :
    front s = .error (.pcMisaligned s.pc) := by
  simp only [front, h, Bool.true_eq_false, if_false, if_neg (Nat.not_le.mpr hp), if_pos ha]

/-- A loaded machine inside the program at an aligned pc dispatches the word it fetches. -/
theorem front_dispatch {s : State} (h : s.loaded = true) (hp : u32 s.pc < s.progLen * 4) (ha : u32 s.pc % 4 = 0) :
    front s = dispatchWord (iFetch s.imem s.pc) := by
  simp only [front, h, Bool.true_eq_false, if_false, if_neg (Nat.not_le.mpr hp), ha, ne_eq, not_true_eq_false]

/-! The fields of a reported step. -/

@[simp] theorem report_status (s : State) (x : Status) (f : Option Fault) (t : State) : (report s x f t).status = x := rfl
@[simp] theorem report_fault (s : State) (x : Status) (f : Option Fault) (t : State) : (report s x f t).fault = f := rfl
@[simp] theorem report_message (s : State) (x : Status) (f : Option Fault) (t : State) :
    (report s x f t).message = f.map (messageOf s) := rfl
@[simp] theorem report_after (s : State) (x : Status) (f : Option Fault) (t : State) : (report s x f t).after = t := rfl
@[simp] theorem report_pcAtFetch (s : State) (x : Status) (f : Option Fault) (t : State) :
    (report s x f t).pcAtFetch = s.pc := rfl
@[simp] theorem report_word (s : State) (x : Status) (f : Option Fault) (t : State) :
    (report s x f t).word = fetchedWord s := rfl

/-- Everything a step can report: an error with its fault and message and nothing changed, a stop with neither, or a
running step with the instruction's next state. -/
theorem stepResult_cases (s : State) :
    (∃ f, stepResult s = report s .error (some f) s ∧ step s = .fault f)
      ∨ (∃ x, (x = .completed ∨ x = .halted) ∧ stepResult s = report s x none s ∧ step s = .next s)
      ∨ ∃ w i t, front s = .execute w i ∧ exec i s = .next t ∧ stepResult s = report s .running none t := by
  unfold stepResult step
  cases front s with
  | error f => exact .inl ⟨f, rfl, rfl⟩
  | completed => exact .inr (.inl ⟨_, .inl rfl, rfl, rfl⟩)
  | halted => exact .inr (.inl ⟨_, .inr rfl, rfl, rfl⟩)
  | execute w i =>
    dsimp only
    cases h : exec i s with
    | next t => exact .inr (.inr ⟨w, i, t, rfl, h, rfl⟩)
    | fault f => exact .inl ⟨f, rfl, rfl⟩
    | refused r => exact absurd h (exec_ne_refused i s r)

/-- A step that is not Running changes nothing. -/
theorem afterStep_of_not_running {s : State} (h : (stepResult s).status ≠ .running) : afterStep s = s := by
  rcases stepResult_cases s with ⟨f, e, -⟩ | ⟨x, -, e, -⟩ | ⟨w, i, t, -, -, e⟩
  · simp [afterStep, e]
  · simp [afterStep, e]
  · exact absurd (by simp [e]) h

end Sys2Proof.Machine
end

