-- ==== Sys2Proof/Laws/PerInstr.lean ====
section
/-!
SUPPORT. Statements made per instruction: the family EncodesInRow, with one lemma per constructor. It is about the
instruction as syntax.
-/

namespace Sys2Proof.Laws.EncodesInRow

/-- The toolchain's word for the instruction is in the instruction's own row of R79's mask and match table, and has 0
in every ignored bit (R80, R89). -/
def Statement (i : Instr) : Prop := encode i &&& rowMask i = rowMatch i ∧ encode i &&& usedBits i = encode i

/-- An all-ones mask keeps a word. -/
theorem and_ones (w : Word) : w &&& 0xFFFFFFFF#32 = w := BitVec.and_allOnes

theorem add (rd rs rt : RegIx) : Statement (.add rd rs rt) :=
  ⟨(wordR_selects _ _ _ _ _).trans rfl, wordR_uses_regs _ _ _ _ _⟩
theorem sub (rd rs rt : RegIx) : Statement (.sub rd rs rt) :=
  ⟨(wordR_selects _ _ _ _ _).trans rfl, wordR_uses_regs _ _ _ _ _⟩
theorem and (rd rs rt : RegIx) : Statement (.and rd rs rt) :=
  ⟨(wordR_selects _ _ _ _ _).trans rfl, wordR_uses_regs _ _ _ _ _⟩
theorem or (rd rs rt : RegIx) : Statement (.or rd rs rt) :=
  ⟨(wordR_selects _ _ _ _ _).trans rfl, wordR_uses_regs _ _ _ _ _⟩
theorem slt (rd rs rt : RegIx) : Statement (.slt rd rs rt) :=
  ⟨(wordR_selects _ _ _ _ _).trans rfl, wordR_uses_regs _ _ _ _ _⟩
theorem sll (rd rt : RegIx) (shamt : Shamt) : Statement (.sll rd rt shamt) :=
  ⟨(wordR_selects _ _ _ _ _).trans rfl, wordR_uses_shift _ _ _ _ _⟩
theorem srl (rd rt : RegIx) (shamt : Shamt) : Statement (.srl rd rt shamt) :=
  ⟨(wordR_selects _ _ _ _ _).trans rfl, wordR_uses_shift _ _ _ _ _⟩
theorem jr (rs : RegIx) : Statement (.jr rs) := ⟨(wordR_selects _ _ _ _ _).trans rfl, wordR_uses_jr _ _ _ _ _⟩
theorem addi (rt rs : RegIx) (imm : Imm16) : Statement (.addi rt rs imm) :=
  ⟨(wordI_selects _ _ _ _).trans rfl, and_ones _⟩
theorem lw (rt rs : RegIx) (imm : Imm16) : Statement (.lw rt rs imm) :=
  ⟨(wordI_selects _ _ _ _).trans rfl, and_ones _⟩
theorem sw (rt rs : RegIx) (imm : Imm16) : Statement (.sw rt rs imm) :=
  ⟨(wordI_selects _ _ _ _).trans rfl, and_ones _⟩
theorem beq (rs rt : RegIx) (imm : Imm16) : Statement (.beq rs rt imm) :=
  ⟨(wordI_selects _ _ _ _).trans rfl, and_ones _⟩
theorem bne (rs rt : RegIx) (imm : Imm16) : Statement (.bne rs rt imm) :=
  ⟨(wordI_selects _ _ _ _).trans rfl, and_ones _⟩
theorem j (addr : Addr26) : Statement (.j addr) := ⟨(wordJ_selects _ _).trans rfl, and_ones _⟩
theorem jal (addr : Addr26) : Statement (.jal addr) := ⟨(wordJ_selects _ _).trans rfl, and_ones _⟩

end Sys2Proof.Laws.EncodesInRow
end

