-- ==== Sys2Proof/Tests/Slice0.lean ====
section
/-!
SUPPORT. Tests of the model. Every expected value is the spec's: the words are written bit by bit from the encoding
column of R79, the vectors are those of 95_test_vectors.md, named in each comment. The last part holds, for every
obligation with hypotheses, a concrete witness that meets them, at the ends of their ranges.
-/

namespace Sys2Proof.Tests

open Sys2Proof.Machine

/-! ### WellFormed -/

/-- The one instruction the check refuses (R82, R95). -/
theorem test_illFormed_halt_word : (Instr.sll 0 0 0).wellFormed = false := by decide

/-- Its neighbours are well formed: `sll $zero, $zero, 1` (R83), and each other field nonzero. -/
theorem test_wellFormed_neighbours :
    (Instr.sll 0 0 1).wellFormed = true ∧ (Instr.sll 1 0 0).wellFormed = true ∧ (Instr.sll 0 1 0).wellFormed = true := by
  decide

/-- The default map keeps the source's statements, and so does the one with `j` and `jal` the other way round (R78). -/
theorem test_valid_maps :
    defaultOpcodeMap.valid = true ∧ { defaultOpcodeMap with opJ := 3#6, opJal := 2#6 }.valid = true := by decide

/-- Two R-type instructions with one funct are refused. -/
theorem test_invalid_map_funct : { defaultOpcodeMap with fnSub := 0x20#6 }.valid = false := by decide

/-- Two I-type instructions with one opcode are refused. -/
theorem test_invalid_map_opcode : { defaultOpcodeMap with opSw := 0x23#6 }.valid = false := by decide

/-- An I-type opcode 0, 2 or 3 is refused. -/
theorem test_invalid_map_format :
    { defaultOpcodeMap with opLw := 0#6 }.valid = false ∧ { defaultOpcodeMap with opLw := 2#6 }.valid = false
      ∧ { defaultOpcodeMap with opLw := 3#6 }.valid = false := by decide

/-- A jump opcode other than 2 and 3, or one shared, is refused. -/
theorem test_invalid_map_jump :
    { defaultOpcodeMap with opJ := 9#6 }.valid = false ∧ { defaultOpcodeMap with opJ := 3#6 }.valid = false := by decide

/-! ### Decode: words written from R79's encoding column -/

/-- `000000 sssss ttttt ddddd xxxxx 100000`, rs 1, rt 2, rd 3, ignored bits set. -/
theorem test_decode_add : decode 0b000000_00001_00010_00011_11111_100000#32 = some (.add 3 1 2) := by decide

/-- `000000 sssss ttttt ddddd xxxxx 100010`. -/
theorem test_decode_sub : decode 0b000000_10001_01010_00111_00000_100010#32 = some (.sub 7 17 10) := by decide

/-- `000000 sssss ttttt ddddd xxxxx 100100`. -/
theorem test_decode_and : decode 0b000000_10001_01010_00111_00100_100100#32 = some (.and 7 17 10) := by decide

/-- `000000 sssss ttttt ddddd xxxxx 100101`. -/
theorem test_decode_or : decode 0b000000_11111_00000_10000_00000_100101#32 = some (.or 16 31 0) := by decide

/-- `000000 sssss ttttt ddddd xxxxx 101010`. -/
theorem test_decode_slt : decode 0b000000_00100_01000_00001_00000_101010#32 = some (.slt 1 4 8) := by decide

/-- `000000 xxxxx ttttt ddddd hhhhh 000000`, ignored rs set. -/
theorem test_decode_sll : decode 0b000000_11111_00010_00011_10001_000000#32 = some (.sll 3 2 17) := by decide

/-- `000000 xxxxx ttttt ddddd hhhhh 000010`. -/
theorem test_decode_srl : decode 0b000000_00000_10010_01011_00001_000010#32 = some (.srl 11 18 1) := by decide

/-- `000000 sssss xxxxx xxxxx xxxxx 001000`, ignored fields set. -/
theorem test_decode_jr : decode 0b000000_11110_11111_11111_11111_001000#32 = some (.jr 30) := by decide

/-- `001000 sssss ttttt iiiiiiiiiiiiiiii`. -/
theorem test_decode_addi : decode 0b001000_00001_00010_1000000000000001#32 = some (.addi 2 1 0x8001) := by decide

/-- `100011 sssss ttttt iiiiiiiiiiiiiiii`. -/
theorem test_decode_lw : decode 0b100011_00001_00010_0000000000000100#32 = some (.lw 2 1 4) := by decide

/-- `101011 sssss ttttt iiiiiiiiiiiiiiii`. -/
theorem test_decode_sw : decode 0b101011_10000_00010_1111111111111100#32 = some (.sw 2 16 0xFFFC) := by decide

/-- `000100 sssss ttttt iiiiiiiiiiiiiiii`. -/
theorem test_decode_beq : decode 0b000100_00001_00010_1111111111111111#32 = some (.beq 1 2 0xFFFF) := by decide

/-- `000101 sssss ttttt iiiiiiiiiiiiiiii`. -/
theorem test_decode_bne : decode 0b000101_10001_00010_0000000000000011#32 = some (.bne 17 2 3) := by decide

/-- `000010 aaaaaaaaaaaaaaaaaaaaaaaaaa`. -/
theorem test_decode_j : decode 0b000010_10000000000000000000000001#32 = some (.j 0x2000001) := by decide

/-- `000011 aaaaaaaaaaaaaaaaaaaaaaaaaa`. -/
theorem test_decode_jal : decode 0b000011_01000000000000000000000010#32 = some (.jal 0x1000002) := by decide

/-- Ignored fields (D5): the words of V-ALU-15, V-ALU-16 and V-J-8. -/
theorem test_decode_ignored :
    decode 0x01095160#32 = some (.add 10 8 9) ∧ decode 0x01095040#32 = some (.sll 10 9 1)
      ∧ decode 0x010531C8#32 = some (.jr 8) := by decide

/-- The reserved words of V-D-1 to V-D-5. -/
theorem test_decode_reserved :
    decode 0x0000000C#32 = none ∧ decode 0x01095021#32 = none ∧ decode 0x24080005#32 = none
      ∧ decode 0xFC000000#32 = none ∧ decode 0x40000000#32 = none := by decide

/-- The words of the source's scenarios and of the rules' examples, one of each instruction. -/
theorem test_encode :
    encode (.add 8 16 17) = 0x02114020#32 ∧ encode (.sub 10 8 9) = 0x01095022#32 ∧ encode (.and 10 8 9) = 0x01095024#32
      ∧ encode (.or 10 8 9) = 0x01095025#32 ∧ encode (.slt 10 8 9) = 0x0109502A#32
      ∧ encode (.sll 10 9 4) = 0x00095100#32 ∧ encode (.srl 10 9 4) = 0x00095102#32 ∧ encode (.jr 31) = 0x03E00008#32
      ∧ encode (.addi 8 0 0xFFFD) = 0x2008FFFD#32 ∧ encode (.lw 9 8 4) = 0x8D090004#32
      ∧ encode (.sw 9 8 8) = 0xAD090008#32 ∧ encode (.beq 8 9 2) = 0x11090002#32
      ∧ encode (.bne 8 9 0xFFFE) = 0x1509FFFE#32 ∧ encode (.j 3) = 0x08000003#32 ∧ encode (.jal 3) = 0x0C000003#32 := by
  decide

/-- `decodeTableWord` numbers the bits as the table does; the bits above `nbits` are 0. -/
theorem test_decodeTableWord :
    decodeTableWord 32 0x02114020 = some (.add 8 16 17) ∧ decodeTableWord 16 0x12340008 = some (.jr 0) := by decide

/-! ### One step each, from 95_test_vectors.md section 2 -/

/-- A loaded machine with 16 program words, the word `w` at the pc, and the named registers and data words. -/
def start (pc : Word) (w : Word) (regs : List (RegIx × Word)) (data : List (Nat × Word)) : State :=
  let s := regs.foldl (fun s p => writeReg s p.1 p.2) State.reset
  { s with
    pc := pc
    imem := writeWord [] (u32 pc) w
    dmem := data.foldl (fun m p => writeWord m p.1 p.2) []
    loaded := true
    progLen := 16 }

/-- The step completes with this register and pc. -/
def gives (s : State) (r : RegIx) (v pc : Word) : Bool :=
  onNext (step s) (fun t => readReg t r == v && t.pc == pc)

/-- V-ALU-1: no overflow trap. -/
theorem test_add_wraps : gives (start 0 0x01095020 [(8, 0x7FFFFFFF), (9, 1)] []) 10 0x80000000 4 = true := by decide

/-- V-ALU-14: operands are read before the write. -/
theorem test_add_same : gives (start 0 0x01084020 [(8, 3)] []) 8 6 4 = true := by decide

/-- V-ALU-3. -/
theorem test_sub_borrow : gives (start 0 0x01095022 [(8, 0), (9, 1)] []) 10 0xFFFFFFFF 4 = true := by decide

/-- V-ALU-4. -/
theorem test_sub_wraps : gives (start 0 0x01095022 [(8, 0x80000000), (9, 1)] []) 10 0x7FFFFFFF 4 = true := by decide

/-- V-ALU-5. -/
theorem test_and : gives (start 0 0x01095024 [(8, 0xFFFF0000), (9, 0x0F0F0F0F)] []) 10 0x0F0F0000 4 = true := by decide

/-- V-ALU-6. -/
theorem test_or : gives (start 0 0x01095025 [(8, 0xFFFF0000), (9, 0x0F0F0F0F)] []) 10 0xFFFF0F0F 4 = true := by decide

/-- V-ALU-7: the comparison is signed. -/
theorem test_slt_signed : gives (start 0 0x0109502A [(8, 0x80000000), (9, 0x7FFFFFFF)] []) 10 1 4 = true := by decide

/-- V-ALU-8. -/
theorem test_slt_not_less : gives (start 0 0x0109502A [(8, 1), (9, 0xFFFFFFFF), (10, 7)] []) 10 0 4 = true := by decide

/-- V-ALU-10: bit 1 is lost. -/
theorem test_sll : gives (start 0 0x000957C0 [(9, 3)] []) 10 0x80000000 4 = true := by decide

/-- V-ALU-17: a nonzero word with destination 0 runs and changes nothing but the pc. -/
theorem test_sll_noop :
    onNext (step (start 0 0x00000040 [] [])) (· == { start 0 0x00000040 [] [] with pc := 4#32 }) = true := by decide

/-- V-ALU-11: zeros come in. -/
theorem test_srl : gives (start 0 0x000957C2 [(9, 0x80000000)] []) 10 1 4 = true := by decide

/-- V-ALU-12: a shift by 0. -/
theorem test_srl_zero : gives (start 0 0x00095002 [(9, 0x80000000)] []) 10 0x80000000 4 = true := by decide

/-- V-ADDI-2: the immediate is sign-extended. -/
theorem test_addi_sign : gives (start 0 0x20098000 [] []) 9 0xFFFF8000 4 = true := by decide

/-- V-ADDI-5: the write to register 0 is dropped. -/
theorem test_addi_zero : gives (start 0 0x20000005 [] []) 0 0 4 = true := by decide

/-- V-LS-1: a negative offset. -/
theorem test_lw : gives (start 0 0x8D09FFFC [(8, 8)] [(4, 0xDEADBEEF)]) 9 0xDEADBEEF 4 = true := by decide

/-- V-LS-8: the effective address does not wrap (D7). -/
theorem test_lw_no_wrap :
    faultOf (step (start 0 0x8D090008 [(8, 0xFFFFFFFC)] [(4, 0x55)])) = some (.memoryRangeError 4294967300) := by decide

/-- V-LS-12. -/
theorem test_sw :
    onNext (step (start 0 0xAD090000 [(8, 16), (9, 0xFFFFFFFF)] []))
      (fun t => readWord t.dmem 16 == 0xFFFFFFFF && readWord t.dmem 12 == 0 && readWord t.dmem 20 == 0 && t.pc == 4)
      = true := by decide

/-- V-LS-13. -/
theorem test_sw_misaligned :
    faultOf (step (start 0 0xAD090001 [(8, 16), (9, 5)] [])) = some (.memoryAlignmentError 17) := by decide

/-- V-BR-1. -/
theorem test_beq_taken : gives (start 8 0x11090003 [(8, 4), (9, 4)] []) 8 4 24 = true := by decide

/-- V-BR-4: a target below 0. -/
theorem test_beq_below_zero : faultOf (step (start 0 0x1000FFFE [] [])) = some (.pcOutOfRange (-4)) := by decide

/-- V-BR-9: a back-edge to 0. -/
theorem test_bne_taken : gives (start 8 0x1500FFFD [(8, 1)] []) 8 1 0 = true := by decide

/-- V-BR-8: not taken, so no fault. -/
theorem test_bne_not_taken : gives (start 0 0x1400FFFC [] []) 0 0 4 = true := by decide

/-- V-J-2: a jump to itself. -/
theorem test_j : gives (start 12 0x08000003 [] []) 0 0 12 = true := by decide

/-- V-J-3: the return address is a byte address. -/
theorem test_jal : gives (start 8 0x0C000001 [] []) 31 12 4 = true := by decide

/-- V-J-4, first step: no check at this step. -/
theorem test_jr : gives (start 0 0x01000008 [(8, 6)] []) 8 6 6 = true := by decide

/-- V-J-6, first step: the full pattern. -/
theorem test_jr_high : gives (start 0 0x01000008 [(8, 0x80000000)] []) 8 0x80000000 0x80000000 = true := by decide

/-! ### Dispatch, halt and step checks (95_test_vectors.md section 2.6) -/

/-- V-D-2: a reserved word. -/
theorem test_reserved :
    faultOf (step (start 0 0x01095021 [(8, 1), (9, 1)] [])) = some (.reservedInstruction 0x01095021) := by decide

/-- V-H-1: the zero word halts and changes nothing. -/
theorem test_halted :
    (stepResult (start 4 0 [(8, 1)] [])).status = .halted ∧ (stepResult (start 4 0 [(8, 1)] [])).word = some 0#32
      ∧ afterStep (start 4 0 [(8, 1)] []) = start 4 0 [(8, 1)] [] := by decide

/-- V-PC-1. -/
theorem test_misaligned : faultOf (step { start 0 0x20000005 [] [] with pc := 2#32 }) = some (.pcMisaligned 2) := by decide

/-- V-J-5, second step: the range test comes before the alignment test. -/
theorem test_completed_first :
    (stepResult { start 0 0x01000008 [] [] with pc := 0x21#32, progLen := 4 }).status = .completed := by decide

/-- V-ST-1: a step at power-on. -/
theorem test_notLoaded : faultOf (step State.reset) = some .notLoaded := by decide

/-- The placed word is the next one to run, from reset and from a pc that cannot fetch. -/
theorem test_withFetchWord :
    onNext (step (State.reset.withFetchWord 32 0x2008FFFD)) (fun t => readReg t 8 == 0xFFFFFFFD && t.pc == 4) = true
      ∧ ({ State.reset with pc := 0xFFFFFFFE#32 }.withFetchWord 32 0x2008FFFD).pc = 0#32 := by decide

/-! ### The toolchain (95_test_vectors.md section 4) and the host -/

/-- The words of a source text, if it assembles. -/
def wordsOf (t : String) : Option (List Word) :=
  match assemble t.toList with
  | .ok a => some a.words
  | .error _ => none

/-- The error kind and line of a source text. -/
def errorOf (t : String) : Option (AsmErrorKind × Nat) :=
  match assemble t.toList with
  | .error (.error e) => some (e.kind, e.line)
  | _ => none

/-- A-1 and A-2: case of the mnemonic, and commas. -/
theorem test_asm_add :
    wordsOf "add $t0, $s0, $s1" = some [0x02114020] ∧ wordsOf "ADD $t0 $s0 $s1" = some [0x02114020] := by decide

/-- A-3 and A-4: hex, and literal indices. -/
theorem test_asm_addi :
    wordsOf "addi $t0, $zero, 0x10" = some [0x20080010] ∧ wordsOf "addi $8, $0, -3" = some [0x2008FFFD] := by decide

/-- A-5 to A-9. -/
theorem test_asm_forms :
    wordsOf "lw $t1, 4($t0)\nsw $t1, 8($t0)\nsll $t2, $t1, 4\njr $ra\nadd $t0, $t1, $t2   # comment"
      = some [0x8D090004, 0xAD090008, 0x00095100, 0x03E00008, 0x012A4020] := by decide

/-- A-10: a label on an instruction's line. -/
theorem test_asm_label :
    (assemble "L: addi $t0, $zero, 1".toList).toOption.map (fun a => (a.labels, a.words))
      = some ([("L".toList, 0)], [0x20080001]) := by decide

/-- A-11, A-12, A-14, A-15 and A-16. -/
theorem test_asm_errors :
    errorOf "mul $t0, $t1, $t2" = some (.unknownInstruction, 1) ∧ errorOf "add $t0, $t1, $32" = some (.invalidRegister, 1)
      ∧ errorOf "\nbeq $t0, $t1, nowhere" = some (.undefinedLabel, 2)
      ∧ errorOf "add $t0, $t1, $t2;" = some (.syntaxError, 1)
      ∧ errorOf "bad-label: add $t0, $t1, $t2" = some (.syntaxError, 1) := by decide

/-- A-13: the load fails, and the kind says that the source names either. -/
theorem test_asm_either : errorOf "addi $t0, $zero, abc" = some (.immediateOrLabel, 1) := by decide

/-- A-17: no defined encoding (D23). -/
theorem test_asm_refused : assemble "addi $t0, $zero, 70000".toList = .error (.refused .numberOutOfField) := by decide

/-- S4 and S5: the branch offset law, and the jump quirk with a label one past the end (R86, C2). -/
theorem test_asm_targets :
    wordsOf "j end\njr $ra\nbeq $t0, $t1, end\nbne $t0, $t1, b\nb:\nend:" = some
      [0x08000010, 0x03E00008, 0x11090001, 0x15090000] := by decide

/-- R86: a label that does not match is a SyntaxError, white space around its name and a second colon or not; with a label
that matches, a second colon is part of the instruction text. -/
theorem test_asm_label_errors :
    errorOf "jr $ra\na-b: c: d" = some (.syntaxError, 2) ∧ errorOf " L: jr $ra" = some (.syntaxError, 1)
      ∧ errorOf "L : jr $ra" = some (.syntaxError, 1) ∧ errorOf "a: b: jr $ra" = some (.unknownInstruction, 1) := by decide

/-- R85 and R87: a comment is stripped whatever it holds; another character outside it is a SyntaxError. -/
theorem test_asm_characters :
    wordsOf "jr $ra # \x01\x7f\r é" = some [0x03E00008] ∧ errorOf "jr \x01$ra" = some (.syntaxError, 1)
      ∧ errorOf "jr $é" = some (.syntaxError, 1) := by decide

/-- R93: anything else is InvalidImmediate, a second sign among it; a label may be a shift amount. -/
theorem test_asm_immediates :
    errorOf "addi $t0, $zero, --5" = some (.invalidImmediate, 1)
      ∧ wordsOf "jr $ra\nL: sll $t2, $t1, L" = some [0x03E00008, 0x00095100] := by decide

/-- R92: `$N` with N from 0 to 31, however many digits it has. -/
theorem test_asm_register_index :
    wordsOf "jr $031" = some [0x03E00008] ∧ wordsOf "addi $08, $00, -3" = some [0x2008FFFD]
      ∧ errorOf "jr $032" = some (.invalidRegister, 1) := by decide

/-- R91: a jump to a label that reads as hex. -/
theorem test_asm_hex_label : wordsOf "0x10: jr $ra\nj 0x10" = some [0x03E00008, 0x08000000] := by decide

/-- S11: the display of a word. -/
theorem test_translate :
    (translate [] 0x02114020).hex = [0, 2, 1, 1, 4, 0, 2, 0]
      ∧ (translate [] 0x02114020).binary.map (fun g => g.foldl (fun n b => 2 * n + b.toNat) 0) = [0, 16, 17, 8, 0, 32]
      ∧ (translate [] 0x02114020).immediate = none := by decide

/-- V-ST-2: the empty source loads, and the first step is Completed. -/
theorem test_load_empty :
    (match load [] State.reset State.reset with
      | .installed s _ => (stepResult s).status == .completed && s.pc == 0
      | .failed _ _ => false
      | .refused _ => false) = true := by decide

/-- V-ST-3: a failed load leaves the machine not loaded. -/
theorem test_load_failed :
    (match load "mul $t0,$t1,$t2".toList (start 0 1 [] []) (start 0 1 [] []) with
      | .installed _ _ => false
      | .failed _ s => faultOf (step s) == some .notLoaded
      | .refused _ => false) = true := by decide

/-- The run loop on one running step and a halt: one instruction executed (R241). -/
theorem test_runLoop :
    (runLoop 5 0 (start 0 0x2008FFFD [] [])).status = .halted ∧ (runLoop 5 0 (start 0 0x2008FFFD [] [])).executed = 1 := by
  decide

/-- The cap stops a self-loop with its count (V-ST-4, at a small cap). -/
theorem test_runLoop_cap :
    (runLoop 2 0 (start 0 0x1000FFFF [] [])).fault = some (.iterationLimitExceeded 2)
      ∧ (runLoop 2 0 (start 0 0x1000FFFF [] [])).message = some "terminated — exceeded iteration limit" := by decide

/-- V-LS-12's snapshot is unsigned, and S2's register is signed (D21, C1). -/
theorem test_snapshot :
    (getState (start 0 0 [(8, 0xFFFFFFFD)] [(16, 0xFFFFFFFF)])).regs[8]? = some (-3)
      ∧ (getState (start 0 0 [(8, 0xFFFFFFFD)] [(16, 0xFFFFFFFF)])).dmem[4]? = some 0xFFFFFFFF := by decide

/-! ### Witnesses: the hypotheses of the obligations are met, clause by clause -/

/-- `DecodeOfEncodeGivesTheInstruction`: the default map, and one with the two jump opcodes exchanged. -/
theorem witness_DecodeOfEncodeGivesTheInstruction :
    defaultOpcodeMap.valid = true ∧ { defaultOpcodeMap with opJ := 3#6, opJal := 2#6 }.valid = true := by decide

/-- `EncodeOfDecodeClearsIgnoredBits`. -/
theorem witness_EncodeOfDecodeClearsIgnoredBits : ∃ w i, decode w = some i := ⟨0x01095160, .add 10 8 9, by decide⟩

/-- `IgnoredBitsDoNotMatter`: two words that differ. -/
theorem witness_IgnoredBitsDoNotMatter :
    ∃ w w' i, decode w = some i ∧ w' &&& usedBits i = w &&& usedBits i ∧ w ≠ w' :=
  ⟨0x01095020, 0x01095160, .add 10 8 9, by decide⟩

/-- `DecodeAgreesWithMaskAndMatch`: a word in the row of `jal`. -/
theorem witness_DecodeAgreesWithMaskAndMatch :
    ∃ (w : Word) (j : Instr), decode w = some (.jal 3) ∧ w &&& rowMask j = rowMatch j :=
  ⟨0x0C000003, .jal 7, by decide⟩

/-- `ImmediatesAreAssembledFromTheBits`: the bits at the ends of the three ranges. -/
theorem witness_ImmediatesAreAssembledFromTheBits :
    (jumpTarget 0xFFFFFFFF 0x2000001).getLsbD 1 = false ∧ (jumpTarget 0 0x2000001).getLsbD 2 = true
      ∧ (jumpTarget 0 0x2000001).getLsbD 27 = true ∧ (jumpTarget 0x10000000 0).getLsbD 28 = true := by decide

/-- `RegisterFileLaw`: a register other than 0, the last one. -/
theorem witness_RegisterFileLaw : (31#5 : RegIx) ≠ 0#5 := by decide

/-- `RegisterCallsCheckTheirIndex`: just outside and just inside both ends. -/
theorem witness_RegisterCallsCheckTheirIndex :
    readByIndex State.reset (-1) = .error (.invalidRegister (-1)) ∧ readByIndex State.reset 32 = .error (.invalidRegister 32)
      ∧ (writeByIndex State.reset 0 5).toOption.map (readByIndex · 0) = some (.ok 0)
      ∧ (writeByIndex State.reset 31 (-1)).toOption.map (readByIndex · 31) = some (.ok 0xFFFFFFFF) := by
  refine ⟨rfl, rfl, rfl, rfl⟩

/-- `WordReadAfterWriteInEitherByteOrder`: the last word, and its neighbour. -/
theorem witness_WordReadAfterWriteInEitherByteOrder :
    (508 % 4 = 0 ∧ 504 % 4 = 0) ∧ readWordIn .little (writeWordIn .little [] 508 0x12345678) 508 = 0x12345678
      ∧ readWordIn .little (writeWordIn .little [] 508 0x12345678) 504 = 0 := by decide

/-- `CanonicalMemoriesAreEqualWhenTheyReadEqual`: a memory that lists a byte. -/
theorem witness_CanonicalMemoriesAreEqualWhenTheyReadEqual :
    ∃ m m' : Memory, Memory.wf m ∧ Memory.wf m' ∧ (∀ a, memGet m a = memGet m' a) ∧ m ≠ [] :=
  ⟨[(3, 1)], [(3, 1)], by decide, by decide, fun _ => rfl, by decide⟩

/-- `FetchReadsTheWordOrZero`: the last word of a one-word program, the first past it, and the first past capacity. -/
theorem witness_FetchReadsTheWordOrZero :
    ∃ s, MachineInv s ∧ (u32 0#32 % 4 = 0 ∧ u32 0#32 < 4 * s.progLen ∧ iFetch s.imem 0 = 0x2008FFFD)
      ∧ (u32 4#32 % 4 = 0 ∧ 4 * s.progLen ≤ u32 4#32) ∧ (u32 512#32 % 4 = 0 ∧ 4 * s.progLen ≤ u32 512#32) :=
  ⟨{ start 0 0x2008FFFD [] [] with progLen := 1 }, by decide⟩

/-- `LwLoadsTheWord` and `SwStoresTheWord`: the first and the last word, V-LS-4 among them. -/
theorem witness_LwLoadsTheWord_SwStoresTheWord :
    (let ea := effectiveAddress 4 0xFFFC; ea % 4 = 0 ∧ 0 ≤ ea ∧ ea < Config.dmemBytes ∧ ea = 0)
      ∧ (let ea := effectiveAddress 0 508; ea % 4 = 0 ∧ 0 ≤ ea ∧ ea < Config.dmemBytes ∧ ea = 508)
      ∧ gives (start 0 0x8C0901FC [] [(508, 0x11223344)]) 9 0x11223344 4 = true := by decide

/-- `BadDataAddressFaults`: each clause at both ends (V-LS-2, V-LS-3, V-LS-5, V-LS-6, V-LS-7). -/
theorem witness_BadDataAddressFaults :
    (effectiveAddress 0 1 = 1 ∧ effectiveAddress 0 511 = 511 ∧ (511 : Int) % 4 ≠ 0 ∧ (511 : Int) < Config.dmemBytes)
      ∧ (effectiveAddress 0 512 = 512 ∧ (512 : Int) % 4 = 0 ∧ (Config.dmemBytes : Int) ≤ 512)
      ∧ (effectiveAddress 0 0xFFFC = -4 ∧ (-4 : Int) % 4 = 0)
      ∧ (effectiveAddress 0 513 = 513 ∧ (513 : Int) % 4 ≠ 0 ∧ (Config.dmemBytes : Int) ≤ 513)
      ∧ (effectiveAddress 0 0xFFFF = -1 ∧ (-1 : Int) % 4 ≠ 0) := by decide

/-- `LoadAfterStoreGivesTheWordStored`: a store of the last word, a load of it, and another word. -/
theorem witness_LoadAfterStoreGivesTheWordStored :
    ∃ s t, exec (.sw 9 0 508) s = .next t ∧ effectiveAddress (readReg t 8) 504 = effectiveAddress (readReg s 0) 508
      ∧ 504 % 4 = 0 ∧ ((504 : Nat) : Int) ≠ effectiveAddress (readReg s 0) 508 :=
  ⟨start 0 0 [(8, 4), (9, 7)] [], _, rfl, by decide⟩

/-- `BeqBranchesOnEquality`: taken to 0, taken below 0, not taken, and the last pc of the hypothesis. -/
theorem witness_BeqBranchesOnEquality :
    (∃ s : State, u32 s.pc < 2 ^ 31 ∧ readReg s 8 = readReg s 9 ∧ (u32 s.pc : Int) + 4 + (0xFFFF#16).toInt * 4 = 0)
      ∧ (∃ s : State, u32 s.pc < 2 ^ 31 ∧ readReg s 8 = readReg s 9 ∧ (u32 s.pc : Int) + 4 + (0xFFFE#16).toInt * 4 < 0)
      ∧ (∃ s : State, u32 s.pc < 2 ^ 31 ∧ readReg s 8 ≠ readReg s 9)
      ∧ ∃ s : State, u32 s.pc = 2 ^ 31 - 4 ∧ readReg s 8 = readReg s 9 :=
  ⟨⟨start 0 0 [] [], by decide⟩, ⟨start 0 0 [] [], by decide⟩, ⟨start 0 0 [(8, 1)] [], by decide⟩,
    ⟨{ State.reset with pc := 0x7FFFFFFC#32 }, by decide⟩⟩

/-- `BneBranchesOnInequality`: taken to 0, taken below 0, and not taken. -/
theorem witness_BneBranchesOnInequality :
    (∃ s : State, u32 s.pc < 2 ^ 31 ∧ readReg s 8 ≠ readReg s 9 ∧ (u32 s.pc : Int) + 4 + (0xFFFF#16).toInt * 4 = 0)
      ∧ (∃ s : State, u32 s.pc < 2 ^ 31 ∧ readReg s 8 ≠ readReg s 9 ∧ (u32 s.pc : Int) + 4 + (0xFFFE#16).toInt * 4 < 0)
      ∧ ∃ s : State, u32 s.pc < 2 ^ 31 ∧ readReg s 8 = readReg s 9 :=
  ⟨⟨start 0 0 [(8, 1)] [], by decide⟩, ⟨start 0 0 [(8, 1)] [], by decide⟩, ⟨start 0 0 [] [], by decide⟩⟩

/-- `JumpGoesToTheWordOfItsRegion`: a loaded machine and the first target past its program. -/
theorem witness_JumpGoesToTheWordOfItsRegion :
    ∃ s t, exec (.j 16) s = .next t ∧ s.loaded = true ∧ s.progLen * 4 ≤ u32 t.pc :=
  ⟨start 0 0 [] [], _, rfl, by decide⟩

/-- `JrLoadsThePc`: the first address past the program, and the last misaligned one below it. -/
theorem witness_JrLoadsThePc :
    ∃ s : State, s.loaded = true ∧ s.progLen * 4 ≤ u32 (readReg s 8)
      ∧ u32 (readReg s 9) < s.progLen * 4 ∧ u32 (readReg s 9) % 4 ≠ 0 :=
  ⟨start 0 0 [(8, 64), (9, 63)] [], by decide⟩

/-- `OnlyTheListedRegistersAreWritten`: a next state, and a register that is not the destination. -/
theorem witness_OnlyTheListedRegistersAreWritten :
    ∃ i s t, exec i s = .next t ∧ destination i ≠ some 30#5 := ⟨.jal 3, State.reset, _, rfl, by decide⟩

/-- `TheInstructionStreamIsFixed`: a run of two steps, and an instruction that is no store. -/
theorem witness_TheInstructionStreamIsFixed :
    (∃ s t, Host.Core.run Sys2Proof.core 2 s = .next t ∧ t.pc = 64#32)
      ∧ ∃ i s t, exec i s = .next t ∧ ∀ rt rs imm, i ≠ .sw rt rs imm :=
  ⟨⟨start 0 0x08000010 [] [], _, rfl, rfl⟩, .j 3, State.reset, _, rfl, by simp⟩

/-- `TheNextPcIsTheMultiplexersChoice`: a taken branch. -/
theorem witness_TheNextPcIsTheMultiplexersChoice : ∃ s t, exec (.beq 0 0 3) s = .next t :=
  ⟨State.reset, _, rfl⟩

/-- `DatapathRefinesTheInstructionRules`: the wires of `jr`, its don't-care wires set to anything. -/
theorem witness_DatapathRefinesTheInstructionRules :
    ∃ w i k, decode w = some i ∧ (controlRow i).drives k = true :=
  ⟨0x03E00008, .jr 31, ⟨false, .ra, .sextImm, .sll, false, false, .mem, .reg⟩, by decide⟩

/-- `StepRunsTheDecodedInstruction`: the last word of a program. -/
theorem witness_StepRunsTheDecodedInstruction :
    ∃ (s : State) (i : Instr), s.loaded = true ∧ u32 s.pc < s.progLen * 4 ∧ u32 s.pc % 4 = 0 ∧ iFetch s.imem s.pc ≠ 0#32
      ∧ decode (iFetch s.imem s.pc) = some i :=
  ⟨start 60 0x08000003 [] [], .j 3, by decide⟩

/-- `PlacedWordRunsNext`: from the state at power-on. -/
theorem witness_PlacedWordRunsNext :
    BitVec.ofNat 32 (0x03E00008 % 2 ^ 32) ≠ 0#32 ∧ decodeTableWord 32 0x03E00008 = some (.jr 31) := by decide

/-- `StepBeforeLoadIsNotLoaded`: the state at power-on. -/
theorem witness_StepBeforeLoadIsNotLoaded : State.reset.loaded = false := by decide

/-- `StepPastTheProgramIsCompleted`: the first address past the program, and a misaligned one (V-J-5). -/
theorem witness_StepPastTheProgramIsCompleted :
    (∃ s : State, s.loaded = true ∧ s.progLen * 4 = u32 s.pc) ∧ ∃ s : State, s.loaded = true ∧ s.progLen * 4 ≤ u32 s.pc ∧ u32 s.pc % 4 ≠ 0 :=
  ⟨⟨start 64 0 [] [], by decide⟩, ⟨start 65 0 [] [], by decide⟩⟩

/-- `MisalignedFetchFaults`: the last misaligned address below the program's end. -/
theorem witness_MisalignedFetchFaults : ∃ s : State, s.loaded = true ∧ u32 s.pc < s.progLen * 4 ∧ u32 s.pc % 4 ≠ 0 :=
  ⟨start 63 0 [] [], by decide⟩

/-- `ZeroWordHalts`. -/
theorem witness_ZeroWordHalts :
    ∃ s : State, s.loaded = true ∧ u32 s.pc < s.progLen * 4 ∧ u32 s.pc % 4 = 0 ∧ iFetch s.imem s.pc = 0#32 :=
  ⟨start 60 0 [] [], by decide⟩

/-- `ReservedWordFaults`: V-D-4's word. -/
theorem witness_ReservedWordFaults :
    ∃ s : State, s.loaded = true ∧ u32 s.pc < s.progLen * 4 ∧ u32 s.pc % 4 = 0 ∧ iFetch s.imem s.pc ≠ 0#32
      ∧ decode (iFetch s.imem s.pc) = none :=
  ⟨start 0 0xFC000000 [] [], by decide⟩

/-- `RunningEvenWhenThePcLeavesTheProgram`: V-BR-6, whose branch leaves a program of 3 words. -/
theorem witness_RunningEvenWhenThePcLeavesTheProgram :
    ∃ s t w i, front s = .execute w i ∧ exec i s = .next t ∧ t.progLen * 4 ≤ u32 t.pc :=
  ⟨{ start 4 0x10000005 [] [] with progLen := 3 }, _, 0x10000005, .beq 0 0 5, rfl, rfl, by decide⟩

/-- `StepAndStepResultAgree`: each status has a state. -/
theorem witness_StepAndStepResultAgree :
    (stepResult (start 0 0x2008FFFD [] [])).status = .running ∧ (stepResult (start 0 0 [] [])).status = .halted
      ∧ (stepResult (start 64 0 [] [])).status = .completed ∧ (stepResult State.reset).status = .error := by decide

/-- `StoppedMachinesStayStopped`: an instruction's own fault (P5's store). -/
theorem witness_StoppedMachinesStayStopped : (stepResult (start 8 0xAD090000 [(8, 6)] [])).status ≠ .running := by decide

/-- `StepKeepsTheInvariant`: a store of the last word of data memory. -/
theorem witness_StepKeepsTheInvariant : ∃ s t, MachineInv s ∧ step s = .next t ∧ t.dmem ≠ s.dmem :=
  ⟨start 0 0xAC0901FC [(9, 0xFFFFFFFF)] [], _, by decide, rfl, by decide⟩

/-- `NoPcWrapsWhileExecuting`: the last word of a full memory, and a branch target of 0. -/
theorem witness_NoPcWrapsWhileExecuting :
    (∃ s w i, MachineInv s ∧ front s = .execute w i ∧ u32 s.pc = 508)
      ∧ ∃ s w i, MachineInv s ∧ front s = .execute w i ∧ branchTarget s.pc 0xFFFF = 0 :=
  ⟨⟨{ start 508 0x03E00008 [] [] with progLen := 128 }, 0x03E00008, .jr 31, by decide⟩,
    ⟨start 0 0x03E00008 [] [], 0x03E00008, .jr 31, by decide⟩⟩

/-- `RunStopsAtTheFirstStopOrTheCap`: a halt after one instruction, and V-ST-4's endless loop. -/
theorem witness_RunStopsAtTheFirstStopOrTheCap :
    (∃ s, 1 + 1 < Config.runCap ∧ (∀ j < 1, (stepResult (afterStep^[j] s)).status = .running)
        ∧ (stepResult (afterStep^[1] s)).status ≠ .running)
      ∧ ∃ s, ∀ j ≤ Config.runCap + 1, (stepResult (afterStep^[j] s)).status = .running := by
  have h : afterStep (start 0 0x1000FFFF [] []) = start 0 0x1000FFFF [] [] := by decide
  refine ⟨⟨start 0 0x2008FFFD [] [], by decide⟩, start 0 0x1000FFFF [] [], fun j _ => ?_⟩
  rw [Function.iterate_fixed h j]
  decide

/-- `InstallWritesExactlyTheProgram`: two words, the last of them, the first word past them and the last of all. -/
theorem witness_InstallWritesExactlyTheProgram :
    [7#32, 9#32].length ≤ Config.imemWords ∧ readWord (loadWords [7#32, 9#32] State.reset).imem 4 = 9
      ∧ readWord (loadWords [7#32, 9#32] State.reset).imem 8 = 0
      ∧ readWord (loadWords [7#32, 9#32] State.reset).imem 508 = 0
      ∧ ∃ t, step (start 0 0x2008FFFD [] []) = .next t :=
  ⟨by decide, by decide, by decide, by decide, _, rfl⟩

/-- `LoadedSourceExecutesAsWritten`: a source that loads, with an instruction that can be expressed. -/
theorem witness_LoadedSourceExecutesAsWritten :
    ∃ t tr a, load "jr $ra".toList State.reset State.reset = .installed t tr ∧ assemble "jr $ra".toList = .ok a
      ∧ a.lines[0]? = some ("jr $ra".toList, .jr 31) ∧ (Instr.jr 31).wellFormed = true :=
  ⟨_, _, _, rfl, rfl, rfl, rfl⟩

/-- A source of 129 instructions, one more than fit. -/
def tooLong : Text := (List.replicate 129 "jr $0
".toList).flatten

/-- `FailedLoadLeavesTheMachineUnloaded`: an assembly that fails, and a program that is one word too long. -/
theorem witness_FailedLoadLeavesTheMachineUnloaded :
    (∃ e t, load "mul".toList State.reset State.reset = .failed e t)
      ∧ ((assemble tooLong).toOption.map (fun a => decide (Config.imemWords < a.words.length))) = some true :=
  ⟨⟨_, _, rfl⟩, by decide +kernel⟩

/-- `AssembledJumpGoesToFourTimesTheLabel`: S5's jump, and the same `jal`, at the last address of the pc's range. -/
theorem witness_AssembledJumpGoesToFourTimesTheLabel :
    assembleOne [("L".toList, 12)] 4 "j L".toList = .ok (.j 12) ∧ assembleOne [("L".toList, 12)] 4 "jal L".toList = .ok (.jal 12)
      ∧ 12 < 2 ^ 26 ∧ ∃ s : State, u32 s.pc < 2 ^ 28 :=
  ⟨rfl, rfl, by decide, { State.reset with pc := 0x0FFFFFFC#32 }, by decide⟩

/-- `JumpToALabelAssembles`: a label that reads as hex, and both mnemonics. -/
theorem witness_JumpToALabelAssembles :
    tokens "J 0x10".toList = ["J".toList, "0x10".toList] ∧ labelAddress [("0x10".toList, 8)] "0x10".toList = some 8
      ∧ "0x10".toList.all Char.isDigit = false ∧ lower "J".toList = "j".toList ∧ lower "JAL".toList = "jal".toList := by
  decide

/-- `StepReportsItsOutputs`: the word is fetched at the program's last word, and not past it. -/
theorem witness_StepReportsItsOutputs :
    (stepResult (start 60 0x03E00008 [] [])).word = some 0x03E00008
      ∧ (stepResult { start 60 0x03E00008 [] [] with pc := 64#32 }).word = none := by decide

/-- `AssembledBranchReachesItsLabel`: the farthest targets both ways, with equal and with different registers. -/
theorem witness_AssembledBranchReachesItsLabel :
    (let pc := 131068; let target := 0
      pc % 4 = 0 ∧ target % 4 = 0 ∧ pc < 2 ^ 31 ∧ target < 2 ^ 31 ∧ ((target : Nat) : Int) - (((pc : Nat) : Int) + 4) = -131072)
      ∧ (let pc := 0; let target := 131072
        pc % 4 = 0 ∧ target % 4 = 0 ∧ pc < 2 ^ 31 ∧ target < 2 ^ 31 ∧ ((target : Nat) : Int) - (((pc : Nat) : Int) + 4) = 131068)
      ∧ ∃ s : State, u32 s.pc = 0 ∧ readReg s 8 = readReg s 10 ∧ readReg s 8 ≠ readReg s 9 :=
  ⟨by decide, by decide, start 0 0 [(9, 1)] [], by decide⟩

end Sys2Proof.Tests
end

section
/-!
PROOF. The register file (10_state.md): the frame of the write port, and the law of R22 and R23.
-/

namespace Sys2Proof.Machine

/-- The write port leaves data memory alone. -/
theorem SameData.of_writeReg (s : State) (d : RegIx) (v : Word) : SameData s (writeReg s d v) :=
  fun _ => by rw [writeReg_dmem]

/-- The write port leaves instruction memory, `prog_len` and `loaded` alone. -/
theorem SameProgram.of_writeReg (s : State) (d : RegIx) (v : Word) : SameProgram s (writeReg s d v) :=
  .of_eq (writeReg_imem s d v) (writeReg_progLen s d v) (writeReg_loaded s d v)

/-- Any register but 0 reads what was written to it. -/
theorem readReg_writeReg_self (s : State) {d : RegIx} (v : Word) (h : d ≠ 0#5) : readReg (writeReg s d v) d = v := by
  rw [readReg_writeReg, if_pos ⟨rfl, h⟩]

/-- The word of an integer is its low 32 bits: `v & 0xFFFFFFFF` in R23. -/
theorem u32_ofInt (v : Int) : (u32 (BitVec.ofInt 32 v) : Int) = v % 2 ^ 32 := by
  rw [u32_eq_toNat, BitVec.toNat_ofInt]
  exact Int.toNat_of_nonneg (Int.emod_nonneg v (by decide))

/-- Settles O10: read after write at the register written, and the write port's frame for everything else. -/
theorem registerFileLaw : Obligations.RegisterFileLaw := by
  refine ⟨readReg_zero, writeReg_zero, fun s r v hr => ?_, fun s r v => ?_⟩
  · rw [readReg_writeReg_self s _ hr, u32_ofInt]
  · exact ⟨.of_writeReg s r v, .of_writeReg s r v, .of_writeReg s r v, writeReg_pc s r v⟩

end Sys2Proof.Machine
end

section
/-!
PROOF. The instruction word's fields (30_encoding.md R71) as arithmetic on the word, and how they overlap.
-/

namespace Sys2Proof.Machine

/-- A range of bits, read as a number: the word shifted down to the range's lowest bit, modulo 2 to its width. -/
theorem toNat_extractLsb'_word (w : Word) (start len : Nat) :
    (w.extractLsb' start len).toNat = u32 w / 2 ^ start % 2 ^ len := by
  rw [BitVec.extractLsb'_toNat, Nat.shiftRight_eq_div_pow]

/-- A range that starts at bit 0 is the word modulo 2 to its width. -/
theorem toNat_extractLsb'_word_zero (w : Word) (len : Nat) : (w.extractLsb' 0 len).toNat = u32 w % 2 ^ len := by
  rw [toNat_extractLsb'_word, Nat.pow_zero, Nat.div_one]

/-- The opcode reaches up to bit 31, so nothing is left above it for a modulus to drop. -/
theorem toNat_fieldOpcode (w : Word) : (fieldOpcode w).toNat = u32 w / 2 ^ 26 := by
  have hw : u32 w / 2 ^ 26 < 2 ^ 6 := Nat.div_lt_of_lt_mul w.isLt
  rw [fieldOpcode, toNat_extractLsb'_word, Nat.mod_eq_of_lt hw]

/-- `imm` covers `rd`, `shamt` and `funct` (R71): three adjacent ranges joined. -/
theorem fieldImm_eq_append (w : Word) : fieldImm w = fieldRd w ++ fieldShamt w ++ fieldFunct w := by
  have hrd : fieldRd w ++ fieldShamt w = w.extractLsb' 6 10 := BitVec.extractLsb'_append_extractLsb'_eq_extractLsb' rfl
  have himm : w.extractLsb' 6 10 ++ fieldFunct w = fieldImm w := BitVec.extractLsb'_append_extractLsb'_eq_extractLsb' rfl
  rw [hrd, himm]

/-- `addr` covers `rs`, `rt` and `imm` (R71): three adjacent ranges joined. -/
theorem fieldAddr_eq_append (w : Word) : fieldAddr w = fieldRs w ++ fieldRt w ++ fieldImm w := by
  have hrs : fieldRs w ++ fieldRt w = w.extractLsb' 16 10 := BitVec.extractLsb'_append_extractLsb'_eq_extractLsb' rfl
  have haddr : w.extractLsb' 16 10 ++ fieldImm w = fieldAddr w := BitVec.extractLsb'_append_extractLsb'_eq_extractLsb' rfl
  rw [hrs, haddr]

/-- Settles O8: each field is a range of bits, read by the range's arithmetic, and the overlaps are joined ranges. -/
theorem fieldsAreTheBitsOfTheWord : Obligations.FieldsAreTheBitsOfTheWord := by
  refine fun w => ⟨⟨toNat_fieldOpcode w, ?rs, ?rt, ?rd, ?shamt, ?funct, ?imm, ?addr⟩,
    fieldImm_eq_append w, fieldAddr_eq_append w⟩
  case rs => exact toNat_extractLsb'_word w 21 5
  case rt => exact toNat_extractLsb'_word w 16 5
  case rd => exact toNat_extractLsb'_word w 11 5
  case shamt => exact toNat_extractLsb'_word w 6 5
  case funct => exact toNat_extractLsb'_word_zero w 6
  case imm => exact toNat_extractLsb'_word_zero w 16
  case addr => exact toNat_extractLsb'_word_zero w 26

end Sys2Proof.Machine
end

section
/-!
PROOF. The datapath cycle (40_datapath_cycle.md R101, R111): what the step reports for each end of its front.
-/

namespace Sys2Proof.Machine

/-- A machine with nothing loaded stops at the first check, whatever its pc and memories hold (R101). -/
theorem front_notLoaded {s : State} (h : s.loaded = false) : front s = .error .notLoaded := if_pos h

/-- Only a loaded machine reaches an instruction. -/
theorem loaded_of_front_execute {s : State} {w : Word} {i : Instr} (h : front s = .execute w i) : s.loaded = true := by
  by_contra hl
  have hn : front s = .error .notLoaded := front_notLoaded (Bool.eq_false_of_not_eq_true hl)
  exact Front.noConfusion (hn.symm.trans h)

/-- A front that ends in a fault makes the step raise it. -/
theorem step_of_front_error {s : State} {f : Fault} (h : front s = .error f) : step s = .fault f := by
  simp only [step, h, raise]

/-- A front that ends in a fault makes the step report Error with that fault, the state unchanged. -/
theorem stepResult_of_front_error {s : State} {f : Fault} (h : front s = .error f) :
    stepResult s = report s .error (some f) s := by
  simp only [stepResult, h]

/-- A front that finds the program's end makes the step report Completed, the state unchanged. -/
theorem stepResult_of_front_completed {s : State} (h : front s = .completed) :
    stepResult s = report s .completed none s := by
  simp only [stepResult, h]

/-- An instruction that completes makes the step report Running with the instruction's state. -/
theorem stepResult_of_exec_next {s t : State} {w : Word} {i : Instr} (hf : front s = .execute w i)
    (he : exec i s = .next t) : stepResult s = report s .running none t := by
  simp only [stepResult, hf, he]

/-- Settles O39: the first check stops the step, so every later part of it is out of reach. -/
theorem stepBeforeLoadIsNotLoaded : Obligations.StepBeforeLoadIsNotLoaded := by
  intro s hl
  have hf : front s = .error .notLoaded := front_notLoaded hl
  have hr : stepResult s = report s .error (some .notLoaded) s := stepResult_of_front_error hf
  exact ⟨by rw [hr, report_status], by rw [hr, report_fault], by rw [afterStep, hr, report_after], step_of_front_error hf⟩

/-- Settles O44: the status does not look at the new pc, and the next step finds the machine still loaded, because no
instruction unloads it; so at or past the end it is Completed. -/
theorem runningEvenWhenThePcLeavesTheProgram : Obligations.RunningEvenWhenThePcLeavesTheProgram := by
  intro s t w i hf he
  have hr : stepResult s = report s .running none t := stepResult_of_exec_next hf he
  refine ⟨by rw [hr, report_status], by rw [afterStep, hr, report_after], fun hpast => ?_⟩
  obtain ⟨-, -, hkeep⟩ := exec_program he
  have hloaded : t.loaded = true := hkeep.trans (loaded_of_front_execute hf)
  rw [stepResult_of_front_completed (front_completed hloaded hpast), report_status]

end Sys2Proof.Machine
end

section
/-!
PROOF. The register ALU instructions (41_alu_register.md R130 to R137): the ALU's functions as arithmetic or bit by
bit, what an R-type word decodes to by its funct, and the frame of an instruction that ends in a write-back.
-/

namespace Sys2Proof.Machine

/-! ### The functions of the ALU (R114) -/

/-- `ADD` wraps modulo 2^32. -/
theorem u32_aluAdd (a b : Word) : u32 (aluAdd a b) = (u32 a + u32 b) % 2 ^ 32 := BitVec.toNat_add a b

/-- `SUB` wraps modulo 2^32: a negative difference comes out as its residue. -/
theorem u32_aluSub (a b : Word) : (u32 (aluSub a b) : Int) = ((u32 a : Int) - (u32 b : Int)) % 2 ^ 32 := by
  have ha : a.toNat < 2 ^ 32 := a.isLt
  have hb : b.toNat < 2 ^ 32 := b.isLt
  simp only [aluSub, u32_eq_toNat, BitVec.toNat_sub]
  omega

/-- `AND` acts on each bit by itself. -/
theorem getLsbD_aluAnd (a b : Word) (k : Nat) : (aluAnd a b).getLsbD k = (a.getLsbD k && b.getLsbD k) :=
  BitVec.getLsbD_and

/-- `OR` acts on each bit by itself. -/
theorem getLsbD_aluOr (a b : Word) (k : Nat) : (aluOr a b).getLsbD k = (a.getLsbD k || b.getLsbD k) :=
  BitVec.getLsbD_or

/-- `SLT` compares the two's-complement readings. -/
theorem aluSlt_eq_ite (a b : Word) : aluSlt a b = if s32 a < s32 b then 1#32 else 0#32 := by
  simp only [aluSlt, lessSigned, decide_eq_true_eq]

/-- `SLL` multiplies by a power of 2; what leaves bit 31 is what the modulus drops. -/
theorem u32_aluSll (b : Word) (sh : Shamt) : u32 (aluSll b sh) = u32 b * 2 ^ sh.toNat % 2 ^ 32 := by
  rw [aluSll, shiftAmount, u32_eq_toNat, BitVec.toNat_shiftLeft, Nat.shiftLeft_eq]

/-- `SRL` divides by a power of 2: zeros come in, whatever bit 31 was. -/
theorem u32_aluSrl (b : Word) (sh : Shamt) : u32 (aluSrl b sh) = u32 b / 2 ^ sh.toNat := by
  rw [aluSrl, shiftAmount, u32_eq_toNat, BitVec.toNat_ushiftRight, Nat.shiftRight_eq_div_pow]

/-! ### The R-type words (R75, R79) -/

/-- What an R-type word decodes to: its funct selects the instruction, and its other fields are the operands. -/
theorem decode_wordR (rs rt rd : RegIx) (sh : Shamt) (f : Sel) :
    decode (wordR rs rt rd sh f) =
      if f = 0x20#6 then some (.add rd rs rt)
      else if f = 0x22#6 then some (.sub rd rs rt)
      else if f = 0x24#6 then some (.and rd rs rt)
      else if f = 0x25#6 then some (.or rd rs rt)
      else if f = 0x2A#6 then some (.slt rd rs rt)
      else if f = 0x00#6 then some (.sll rd rt sh)
      else if f = 0x02#6 then some (.srl rd rt sh)
      else if f = 0x08#6 then some (.jr rs)
      else none := by
  have hR : decode (wordR rs rt rd sh f) = decodeR defaultOpcodeMap (wordR rs rt rd sh f) :=
    if_pos (fieldOpcode_wordR rs rt rd sh f)
  rw [hR]
  simp only [decodeR, defaultOpcodeMap, fieldFunct_wordR, fieldRs_wordR, fieldRt_wordR, fieldRd_wordR, fieldShamt_wordR]

/-! ### The instructions -/

/-- The shape all seven instructions share (R109, R110): the arm of `exec` is a write-back of an ALU result (`h`, which
is `rfl` for each of them), and the rule says what that result is (`hp`). -/
theorem exists_writesOnly_of_exec_eq_writeBack {i : Instr} {d : RegIx} {v : Word} {s : State} {p : Word → Prop}
    (h : exec i s = writeBack d v s) (hp : p v) : ∃ v t, exec i s = .next t ∧ WritesOnly d v s t ∧ p v := by
  obtain ⟨t, ht, hw⟩ := writeBack_writesOnly d v s
  exact ⟨v, t, h.trans ht, hw, hp⟩

/-- Settles O16: `add` writes back the ALU's wrapped sum. -/
theorem addWritesTheWrappedSum : Obligations.AddWritesTheWrappedSum := by
  refine fun rd rs rt s => ⟨?value, fun sh => decode_wordR rs rt rd sh 0x20#6⟩
  exact exists_writesOnly_of_exec_eq_writeBack rfl (u32_aluAdd (readReg s rs) (readReg s rt))

/-- Settles O17: `sub` writes back the ALU's wrapped difference. -/
theorem subWritesTheWrappedDifference : Obligations.SubWritesTheWrappedDifference := by
  refine fun rd rs rt s => ⟨?value, fun sh => decode_wordR rs rt rd sh 0x22#6⟩
  exact exists_writesOnly_of_exec_eq_writeBack rfl (u32_aluSub (readReg s rs) (readReg s rt))

/-- Settles O18: `and` writes back the ALU's bitwise AND. -/
theorem andWritesTheBitwiseAnd : Obligations.AndWritesTheBitwiseAnd := by
  refine fun rd rs rt s => ⟨?value, fun sh => decode_wordR rs rt rd sh 0x24#6⟩
  exact exists_writesOnly_of_exec_eq_writeBack rfl (getLsbD_aluAnd (readReg s rs) (readReg s rt))

/-- Settles O19: `or` writes back the ALU's bitwise OR. -/
theorem orWritesTheBitwiseOr : Obligations.OrWritesTheBitwiseOr := by
  refine fun rd rs rt s => ⟨?value, fun sh => decode_wordR rs rt rd sh 0x25#6⟩
  exact exists_writesOnly_of_exec_eq_writeBack rfl (getLsbD_aluOr (readReg s rs) (readReg s rt))

/-- Settles O20: `slt` writes back the ALU's signed comparison. -/
theorem sltWritesTheSignedComparison : Obligations.SltWritesTheSignedComparison := by
  refine fun rd rs rt s => ⟨?value, fun sh => decode_wordR rs rt rd sh 0x2A#6⟩
  exact exists_writesOnly_of_exec_eq_writeBack rfl (aluSlt_eq_ite (readReg s rs) (readReg s rt))

/-- Settles O21: `sll` writes back the ALU's left shift; the zero test of the dispatch comes before decode (R82). -/
theorem sllShiftsLeftLogical : Obligations.SllShiftsLeftLogical := by
  refine fun rd rt sh s => ⟨?value, fun rs => decode_wordR rs rt rd sh 0x00#6, if_pos rfl⟩
  exact exists_writesOnly_of_exec_eq_writeBack rfl (u32_aluSll (readReg s rt) sh)

/-- Settles O22: `srl` writes back the ALU's logical right shift. -/
theorem srlShiftsRightLogical : Obligations.SrlShiftsRightLogical := by
  refine fun rd rt sh s => ⟨?value, fun rs => decode_wordR rs rt rd sh 0x02#6⟩
  exact exists_writesOnly_of_exec_eq_writeBack rfl (u32_aluSrl (readReg s rt) sh)

end Sys2Proof.Machine
end

section
/-!
PROOF. The immediate ALU instruction (42_alu_immediate.md R150): the sign-extended immediate as a number, the wrapped
sum of a word and an immediate, and what an I-type word decodes to by its opcode.
-/

namespace Sys2Proof.Machine

/-! ### The operand (R76, R150) -/

/-- The sign-extended immediate is the residue modulo 2^32 of the signed value. -/
theorem u32_sext32 (imm : Imm16) : (u32 (sext32 imm) : Int) = imm.toInt % 2 ^ 32 := u32_ofInt imm.toInt

/-- Adding the sign-extended immediate adds its signed value, modulo 2^32. -/
theorem u32_aluAdd_sext32 (a : Word) (imm : Imm16) :
    (u32 (aluAdd a (sext32 imm)) : Int) = ((u32 a : Int) + imm.toInt) % 2 ^ 32 := by
  calc (u32 (aluAdd a (sext32 imm)) : Int)
      = ((u32 a : Int) + (u32 (sext32 imm) : Int)) % 2 ^ 32 := by rw [u32_aluAdd]; norm_cast
    _ = ((u32 a : Int) + imm.toInt) % 2 ^ 32 := by rw [u32_sext32, Int.add_emod_emod]

/-! ### The I-type words (R75, R79) -/

/-- What an I-type word decodes to when its opcode is not one that R75 sends to the R-type or J-type handler: the opcode
selects the instruction, and the other fields are the operands. -/
theorem decode_wordI {op : Sel} (hR : op ≠ 0#6) (hJ : ¬(op = 2#6 ∨ op = 3#6)) (rs rt : RegIx) (imm : Imm16) :
    decode (wordI op rs rt imm) =
      if op = 0x08#6 then some (.addi rt rs imm)
      else if op = 0x23#6 then some (.lw rt rs imm)
      else if op = 0x2B#6 then some (.sw rt rs imm)
      else if op = 0x04#6 then some (.beq rs rt imm)
      else if op = 0x05#6 then some (.bne rs rt imm)
      else none := by
  have hI : decode (wordI op rs rt imm) = decodeI defaultOpcodeMap (wordI op rs rt imm) := by
    rw [decode, decodeWith, fieldOpcode_wordI, if_neg hR, if_neg hJ]
  rw [hI]
  simp only [decodeI, defaultOpcodeMap, fieldOpcode_wordI, fieldRs_wordI, fieldRt_wordI, fieldImm_wordI]

/-! ### The instruction -/

/-- Settles O23: `addi` writes back the ALU's wrapped sum of the source and the sign-extended immediate. -/
theorem addiWritesTheWrappedSum : Obligations.AddiWritesTheWrappedSum := by
  refine fun rt rs imm s => ⟨?value, decode_wordI (by decide) (by decide) rs rt imm⟩
  exact exists_writesOnly_of_exec_eq_writeBack rfl (u32_aluAdd_sext32 (readReg s rs) imm)

end Sys2Proof.Machine
end

section
/-!
PROOF. Control transfer (44_control_transfer.md R180 to R188): the targets as numbers, how a branch ends, what the step
after a jump finds, and what a J-type word decodes to by its opcode.
-/

namespace Sys2Proof.Machine

/-! ### The branch target (R180, R181) -/

/-- The branch target, with the signed value of the immediate field in place of its sign-extended word. -/
theorem branchTarget_eq_toInt (pc : Word) (imm : Imm16) : branchTarget pc imm = (u32 pc : Int) + 4 + imm.toInt * 4 := by
  rw [branchTarget, sext32, s32_eq_toInt, BitVec.toInt_signExtend_of_le (by decide)]

/-- From a pc below 2^31 no branch reaches 2^32: its displacement is below 2^17. -/
theorem branchTarget_lt {pc : Word} (hpc : u32 pc < 2 ^ 31) (imm : Imm16) : branchTarget pc imm < 2 ^ 32 := by
  have himm : imm.toInt < 2 ^ 15 := BitVec.toInt_lt
  rw [branchTarget_eq_toInt]
  omega

/-- From a pc below 2^31 the pc can hold every target that is not below 0, so log 9's modulus drops nothing. -/
theorem u32_ofInt_branchTarget {pc : Word} {imm : Imm16} (hpc : u32 pc < 2 ^ 31) (h0 : 0 ≤ branchTarget pc imm) :
    (u32 (BitVec.ofInt 32 (branchTarget pc imm)) : Int) = branchTarget pc imm := by
  rw [u32_ofInt, Int.emod_eq_of_lt h0 (branchTarget_lt hpc imm)]

/-! ### How a branch ends (R181, R184, R185) -/

/-- A branch that is taken to a target the pc can hold completes there and changes nothing else. -/
theorem branchWhen_true_jumps {imm : Imm16} {s : State} (hpc : u32 s.pc < 2 ^ 31) (h0 : 0 ≤ branchTarget s.pc imm) :
    ∃ t, branchWhen true imm s = .next t ∧ JumpsOnly t.pc s t ∧ (u32 t.pc : Int) = branchTarget s.pc imm :=
  ⟨jumpTo s (BitVec.ofInt 32 (branchTarget s.pc imm)), by simp [branchWhen, Int.not_lt.mpr h0],
    jumpTo_jumpsOnly s _, u32_ofInt_branchTarget hpc h0⟩

/-- A branch that is taken to a target below 0 raises PCOutOfRange (D11). -/
theorem branchWhen_true_faults {imm : Imm16} {s : State} (h : branchTarget s.pc imm < 0) :
    branchWhen true imm s = .fault (.pcOutOfRange (branchTarget s.pc imm)) := by
  simp [branchWhen, h, raise]

/-- A branch that is not taken falls through. -/
theorem branchWhen_false_advances (imm : Imm16) (s : State) :
    ∃ t, branchWhen false imm s = .next t ∧ JumpsOnly (s.pc + 4#32) s t :=
  ⟨advance s, rfl, advance_jumpsOnly s⟩

/-- `beq` is a branch taken when its registers are equal. -/
theorem exec_beq (rs rt : RegIx) (imm : Imm16) (s : State) :
    exec (.beq rs rt imm) s = branchWhen (decide (readReg s rs = readReg s rt)) imm s := rfl

/-- `bne` is a branch taken when its registers are different. -/
theorem exec_bne (rs rt : RegIx) (imm : Imm16) (s : State) :
    exec (.bne rs rt imm) s = branchWhen (!decide (readReg s rs = readReg s rt)) imm s := rfl

/-- Settles O28: equal registers take the branch, and its end is decided by the sign of the target. -/
theorem beqBranchesOnEquality : Obligations.BeqBranchesOnEquality := by
  intro rs rt imm s hpc
  simp only [exec_beq, ← branchTarget_eq_toInt]
  refine ⟨fun heq h0 => ?taken, fun heq hneg => ?below, fun hne => ?fallsThrough, ?word⟩
  case taken => rw [decide_eq_true heq]; exact branchWhen_true_jumps hpc h0
  case below => rw [decide_eq_true heq]; exact branchWhen_true_faults hneg
  case fallsThrough => rw [decide_eq_false hne]; exact branchWhen_false_advances imm s
  case word => exact decode_wordI (by decide) (by decide) rs rt imm

/-- Settles O29: as for `beq`, with the comparator's answer negated. -/
theorem bneBranchesOnInequality : Obligations.BneBranchesOnInequality := by
  intro rs rt imm s hpc
  simp only [exec_bne, ← branchTarget_eq_toInt]
  refine ⟨fun hne h0 => ?taken, fun hne hneg => ?below, fun heq => ?fallsThrough, ?word⟩
  case taken => rw [decide_eq_false hne]; exact branchWhen_true_jumps hpc h0
  case below => rw [decide_eq_false hne]; exact branchWhen_true_faults hneg
  case fallsThrough => rw [decide_eq_true heq]; exact branchWhen_false_advances imm s
  case word => exact decode_wordI (by decide) (by decide) rs rt imm

/-! ### The jump target (R182) -/

/-- The top four bits of a pc, as a number: the start of its 256 MiB region. -/
theorem u32_and_regionMask (pc : Word) : u32 (pc &&& 0xF0000000#32) = u32 pc / 2 ^ 28 * 2 ^ 28 := by
  have hle : u32 pc / 2 ^ 28 * 2 ^ 28 ≤ u32 pc := Nat.div_mul_le_self ..
  have hmask : pc &&& 0xF0000000#32 = pc >>> 28 <<< 28 := (BitVec.shiftLeft_ushiftRight (x := pc) (n := 28)).symm
  rw [hmask, u32_eq_toNat, BitVec.toNat_shiftLeft, BitVec.toNat_ushiftRight, Nat.shiftRight_eq_div_pow,
    Nat.shiftLeft_eq, Nat.mod_eq_of_lt (hle.trans_lt pc.isLt)]

/-- The jump field shifted left by 2, as a number: no bit is lost, because the field has 26. -/
theorem u32_setWidth_shiftLeft (addr : Addr26) : u32 (addr.setWidth 32 <<< 2) = addr.toNat * 4 := by
  have haddr : addr.toNat < 2 ^ 26 := addr.isLt
  rw [u32_eq_toNat, BitVec.toNat_shiftLeft, BitVec.toNat_setWidth, Nat.shiftLeft_eq]
  omega

/-- The jump target is word `addr` of the pc's region: the two parts share no bit, so their OR is their sum. -/
theorem u32_jumpTarget (pc : Word) (addr : Addr26) :
    u32 (jumpTarget pc addr) = u32 pc / 2 ^ 28 * 2 ^ 28 + addr.toNat * 4 := by
  have hlow : addr.toNat * 4 < 2 ^ 28 := by have := addr.isLt; omega
  calc u32 (jumpTarget pc addr)
      = u32 (pc &&& 0xF0000000#32) ||| u32 (addr.setWidth 32 <<< 2) := BitVec.toNat_or _ _
    _ = u32 pc / 2 ^ 28 * 2 ^ 28 ||| addr.toNat * 4 := by rw [u32_and_regionMask, u32_setWidth_shiftLeft]
    _ = u32 pc / 2 ^ 28 * 2 ^ 28 + addr.toNat * 4 := by
        rw [← Nat.shiftLeft_eq, Nat.shiftLeft_add_eq_or_of_lt hlow]

/-! ### The step after a jump (R102, R103, R183) -/

/-- A jump to or past the program's end is Completed at the next step. -/
theorem stepResult_jumpTo_completed {s : State} {target : Word} (hl : s.loaded = true)
    (hp : s.progLen * 4 ≤ u32 target) : (stepResult (jumpTo s target)).status = .completed := by
  have hf : front (jumpTo s target) = .completed := front_completed hl hp
  rw [stepResult_of_front_completed hf, report_status]

/-- A jump below the program's end to no multiple of 4 is PCMisaligned at the next step (D10). -/
theorem stepResult_jumpTo_misaligned {s : State} {target : Word} (hl : s.loaded = true)
    (hp : u32 target < s.progLen * 4) (ha : u32 target % 4 ≠ 0) :
    (stepResult (jumpTo s target)).status = .error
      ∧ (stepResult (jumpTo s target)).fault = some (.pcMisaligned target) := by
  have hf : front (jumpTo s target) = .error (.pcMisaligned target) := front_misaligned hl hp ha
  rw [stepResult_of_front_error hf]
  exact ⟨report_status .., report_fault ..⟩

/-! ### The J-type words (R75, R79) -/

/-- What a word of opcode 2 or 3 decodes to: the opcode selects the jump, and the rest is its operand. -/
theorem decode_wordJ {op : Sel} (hJ : op = 2#6 ∨ op = 3#6) (addr : Addr26) :
    decode (wordJ op addr) = if op = 0x02#6 then some (.j addr) else some (.jal addr) := by
  rcases hJ with rfl | rfl <;> simp [decode, decodeWith, decodeJ, defaultOpcodeMap]

/-! ### The jumps -/

/-- Settles O30: `j` only sets the pc to the jump target, a sum of multiples of 4. -/
theorem jumpGoesToTheWordOfItsRegion : Obligations.JumpGoesToTheWordOfItsRegion := by
  refine fun addr s => ⟨⟨jumpTo s (jumpTarget s.pc addr), rfl, jumpTo_jumpsOnly s _, u32_jumpTarget s.pc addr,
    stepResult_jumpTo_completed, ?aligned⟩, decode_wordJ (.inl rfl) addr⟩
  case aligned =>
    rw [jumpTo_pc, u32_jumpTarget]
    omega

/-- Settles O31: `jal` is the write port's frame at register 31, then `j`'s target. -/
theorem jalLinksAndJumps : Obligations.JalLinksAndJumps := by
  refine fun addr s => ⟨⟨jumpTo (writeReg s linkReg (linkAddress s.pc)) (jumpTarget s.pc addr), rfl, ?link,
    SameRegsBut.of_writeReg s _ _, SameData.of_writeReg s _ _, SameProgram.of_writeReg s _ _,
    u32_jumpTarget s.pc addr⟩, decode_wordJ (.inr rfl) addr⟩
  case link => exact readReg_writeReg_self s (linkAddress s.pc) (by decide)

/-- Settles O32: `jr` only sets the pc; whether the value is a good pc is the next step's question. -/
theorem jrLoadsThePc : Obligations.JrLoadsThePc := by
  refine fun rs s => ⟨⟨jumpTo s (readReg s rs), rfl, jumpTo_jumpsOnly s _, stepResult_jumpTo_completed,
    stepResult_jumpTo_misaligned⟩, fun rt rd sh => decode_wordR rs rt rd sh 0x08#6⟩

end Sys2Proof.Machine
end

section
/-!
PROOF. The host's load (70_reset_and_hazards.md R236): which words of instruction memory an installed program determines.
-/

namespace Sys2Proof.Machine

/-- Installing words leaves every word below the first installed and above the last as it was. -/
theorem readWord_installWords_outside (m : Memory) {k j : Nat} (ws : List Word) (h : j < k ∨ k + ws.length ≤ j) :
    readWord (installWords m k ws) (4 * j) = readWord m (4 * j) := by
  induction ws generalizing m k with
  | nil => rfl
  | cons w ws ih =>
    rw [List.length_cons] at h
    calc readWord (installWords (writeWord m (4 * k) w) (k + 1) ws) (4 * j)
        = readWord (writeWord m (4 * k) w) (4 * j) := ih _ (by omega)
      _ = readWord m (4 * j) := readWord_writeWord_ne m w (by omega)

/-- Installing words puts each at its index: the writes that come after one are all above it. -/
theorem readWord_installWords_getElem (m : Memory) (k : Nat) {j : Nat} {ws : List Word} (h : j < ws.length) :
    readWord (installWords m k ws) (4 * (k + j)) = ws[j] := by
  induction ws generalizing m k j with
  | nil => exact absurd h (Nat.not_lt_zero j)
  | cons w ws ih =>
    cases j with
    | zero =>
      calc readWord (installWords (writeWord m (4 * k) w) (k + 1) ws) (4 * k)
          = readWord (writeWord m (4 * k) w) (4 * k) := readWord_installWords_outside _ ws (.inl (Nat.lt_succ_self k))
        _ = w := readWord_writeWord_self m (4 * k) w
    | succ j =>
      have hidx : k + (j + 1) = k + 1 + j := by omega
      rw [hidx]
      exact ih (writeWord m (4 * k) w) (k + 1) (Nat.lt_of_succ_lt_succ h)

/-- A load installs its words from index 0 into an instruction memory that the reset before it emptied (R231, R235). -/
@[simp] theorem loadWords_imem (ws : List Word) (s : State) : (loadWords ws s).imem = installWords [] 0 ws := rfl

/-- Settles O51: the installed words and the untouched rest, which reads as the reset left it; and `step_program` for
the steps. -/
theorem installWritesExactlyTheProgram : Obligations.InstallWritesExactlyTheProgram := by
  refine ⟨fun ws s _ => ⟨fun k hk => ?installed, fun k hk _ => ?rest⟩, fun s t h => ?step⟩
  case installed => simpa using readWord_installWords_getElem [] 0 hk
  case rest => rw [loadWords_imem, readWord_installWords_outside [] ws (.inr (by omega)), readWord_nil]
  case step =>
    obtain ⟨himem, -, -⟩ := step_program h
    exact himem

end Sys2Proof.Machine
end

section
/-!
PROOF. The decoder and the encoder (30_encoding.md sections 3 to 5): the round trip over every value of OPCODE_MAP; at
the default map, that a word decodes to an instruction exactly when its used bits are the instruction's encoding, from
which the ignored bits, the mask and match table and the reserved words follow.
-/

namespace Sys2Proof.Machine

/-! ### Every value of OPCODE_MAP (R75, R78, R79) -/

/-- What a valid map promises, as propositions (R78). -/
theorem valid_iff (m : OpcodeMap) :
    m.valid = true ↔ m.functs.Nodup ∧ m.iOpcodes.Nodup ∧ (∀ o ∈ m.iOpcodes, o ≠ 0#6 ∧ o ≠ 2#6 ∧ o ≠ 3#6)
      ∧ (m.opJ = 2#6 ∧ m.opJal = 3#6 ∨ m.opJ = 3#6 ∧ m.opJal = 2#6) := by
  simp [OpcodeMap.valid, and_assoc]

/-- Opcode 0 goes to the R-type handler under every map (R75). -/
theorem decodeWith_wordR (m : OpcodeMap) (rs rt rd : RegIx) (sh : Shamt) (f : Sel) :
    decodeWith m (wordR rs rt rd sh f) = decodeR m (wordR rs rt rd sh f) :=
  if_pos (fieldOpcode_wordR rs rt rd sh f)

/-- An opcode other than 0, 2 and 3 goes to the I-type handler under every map (R75). -/
theorem decodeWith_wordI (m : OpcodeMap) {op : Sel} (h : op ≠ 0#6 ∧ op ≠ 2#6 ∧ op ≠ 3#6) (rs rt : RegIx)
    (imm : Imm16) : decodeWith m (wordI op rs rt imm) = decodeI m (wordI op rs rt imm) := by
  obtain ⟨h0, h2, h3⟩ := h
  simp only [decodeWith, fieldOpcode_wordI, if_neg h0, h2, h3, or_self, if_false]

/-- The opcodes 2 and 3 go to the J-type handler under every map (R75). -/
theorem decodeWith_wordJ (m : OpcodeMap) {op : Sel} (h : op = 2#6 ∨ op = 3#6) (a : Addr26) :
    decodeWith m (wordJ op a) = decodeJ m (wordJ op a) := by
  have h0 : op ≠ 0#6 := by rcases h with rfl | rfl <;> decide
  simp only [decodeWith, fieldOpcode_wordJ, if_neg h0, if_pos h]

/-- Settles O2: the opcode sends the word to its handler, and there each test before the instruction's own fails because
the map's selectors are distinct. -/
theorem decodeOfEncodeGivesTheInstruction : Obligations.DecodeOfEncodeGivesTheInstruction := by
  intro m hm i
  obtain ⟨hfuncts, hopcodes, hiop, hjump⟩ := (valid_iff m).mp hm
  simp only [OpcodeMap.functs, List.nodup_cons, List.mem_cons, List.not_mem_nil, not_or] at hfuncts
  simp only [OpcodeMap.iOpcodes, List.nodup_cons, List.mem_cons, List.not_mem_nil, not_or] at hopcodes
  simp only [OpcodeMap.iOpcodes, List.forall_mem_cons] at hiop
  cases i
  case add | sub | and | or | slt | sll | srl | jr =>
    rw [encodeWith, decodeWith_wordR]
    simp [decodeR, eq_comm, hfuncts]
  case addi | lw | sw | beq | bne =>
    rw [encodeWith, decodeWith_wordI m (by simp [hiop])]
    simp [decodeI, eq_comm, hopcodes]
  case j a =>
    rw [encodeWith, decodeWith_wordJ m (hjump.imp And.left And.left)]
    simp [decodeJ]
  case jal a =>
    have hne : m.opJal ≠ m.opJ := by rcases hjump with ⟨h, h'⟩ | ⟨h, h'⟩ <;> rw [h, h'] <;> decide
    rw [encodeWith, decodeWith_wordJ m (hjump.symm.imp And.right And.right)]
    simp [decodeJ, hne]

/-! ### The used bits decide (R79, R80) -/

/-- A field that a mask covers is decided by the word's masked bits. -/
theorem extractLsb'_eq_of_and_eq {w mask e : Word} {start len : Nat} (h : w &&& mask = e)
    (hm : mask.extractLsb' start len = BitVec.allOnes len) : w.extractLsb' start len = e.extractLsb' start len := by
  rw [← h, BitVec.extractLsb'_and, hm, BitVec.and_allOnes]

/-- A word that agrees with a three-register word on the bits such an instruction uses, its other bits free. -/
theorem eq_wordR_of_uses_regs {w : Word} {rs rt rd : RegIx} {f : Sel}
    (h : w &&& 0xFFFFF83F#32 = wordR rs rt rd 0#5 f) : w = wordR rs rt rd (fieldShamt w) f := by
  have hop : fieldOpcode w = 0#6 := (extractLsb'_eq_of_and_eq h rfl).trans (fieldOpcode_wordR ..)
  have hrs : fieldRs w = rs := (extractLsb'_eq_of_and_eq h rfl).trans (fieldRs_wordR ..)
  have hrt : fieldRt w = rt := (extractLsb'_eq_of_and_eq h rfl).trans (fieldRt_wordR ..)
  have hrd : fieldRd w = rd := (extractLsb'_eq_of_and_eq h rfl).trans (fieldRd_wordR ..)
  have hf : fieldFunct w = f := (extractLsb'_eq_of_and_eq h rfl).trans (fieldFunct_wordR ..)
  rw [← hrs, ← hrt, ← hrd, ← hf, wordR_fields w hop]

/-- A word that agrees with a shift's word on the bits a shift uses, its other bits free. -/
theorem eq_wordR_of_uses_shift {w : Word} {rt rd : RegIx} {sh : Shamt} {f : Sel}
    (h : w &&& 0xFC1FFFFF#32 = wordR 0#5 rt rd sh f) : w = wordR (fieldRs w) rt rd sh f := by
  have hop : fieldOpcode w = 0#6 := (extractLsb'_eq_of_and_eq h rfl).trans (fieldOpcode_wordR ..)
  have hrt : fieldRt w = rt := (extractLsb'_eq_of_and_eq h rfl).trans (fieldRt_wordR ..)
  have hrd : fieldRd w = rd := (extractLsb'_eq_of_and_eq h rfl).trans (fieldRd_wordR ..)
  have hsh : fieldShamt w = sh := (extractLsb'_eq_of_and_eq h rfl).trans (fieldShamt_wordR ..)
  have hf : fieldFunct w = f := (extractLsb'_eq_of_and_eq h rfl).trans (fieldFunct_wordR ..)
  rw [← hrt, ← hrd, ← hsh, ← hf, wordR_fields w hop]

/-- A word that agrees with a `jr` word on the bits `jr` uses, its other bits free. -/
theorem eq_wordR_of_uses_jr {w : Word} {rs : RegIx} {f : Sel}
    (h : w &&& 0xFFE0003F#32 = wordR rs 0#5 0#5 0#5 f) : w = wordR rs (fieldRt w) (fieldRd w) (fieldShamt w) f := by
  have hop : fieldOpcode w = 0#6 := (extractLsb'_eq_of_and_eq h rfl).trans (fieldOpcode_wordR ..)
  have hrs : fieldRs w = rs := (extractLsb'_eq_of_and_eq h rfl).trans (fieldRs_wordR ..)
  have hf : fieldFunct w = f := (extractLsb'_eq_of_and_eq h rfl).trans (fieldFunct_wordR ..)
  rw [← hrs, ← hf, wordR_fields w hop]

/-- The converse: a word whose used bits are an instruction's encoding decodes to it. -/
theorem decode_of_usedBits {w : Word} {i : Instr} (h : w &&& usedBits i = encode i) : decode w = some i := by
  cases i
  case add | sub | and | or | slt => rw [eq_wordR_of_uses_regs h]; exact decode_wordR ..
  case sll | srl => rw [eq_wordR_of_uses_shift h]; exact decode_wordR ..
  case jr => rw [eq_wordR_of_uses_jr h]; exact decode_wordR ..
  case addi | lw | sw | beq | bne =>
    rw [(Laws.EncodesInRow.and_ones w).symm.trans h]; exact decode_wordI (by decide) (by decide) ..
  case j => rw [(Laws.EncodesInRow.and_ones w).symm.trans h]; exact decode_wordJ (.inl rfl) _
  case jal => rw [(Laws.EncodesInRow.and_ones w).symm.trans h]; exact decode_wordJ (.inr rfl) _

/-- A word that decodes has its instruction's encoding in the bits the instruction uses. -/
theorem usedBits_of_decode {w : Word} {i : Instr} (h : decode w = some i) : w &&& usedBits i = encode i := by
  rcases decode_cases h with ⟨h0, h⟩ | h | h
  · rw [← wordR_fields w h0]
    rcases decodeR_cases h with ⟨hf, rfl⟩ | ⟨hf, rfl⟩ | ⟨hf, rfl⟩ | ⟨hf, rfl⟩ | ⟨hf, rfl⟩ | ⟨hf, rfl⟩ | ⟨hf, rfl⟩ |
      ⟨hf, rfl⟩ <;> rw [hf]
    iterate 5 exact wordR_uses_regs ..
    iterate 2 exact wordR_uses_shift ..
    exact wordR_uses_jr ..
  · rw [← wordJ_fields w]
    rcases decodeJ_cases h with ⟨hop, rfl⟩ | ⟨hop, rfl⟩ <;> rw [hop] <;> exact Laws.EncodesInRow.and_ones _
  · rw [← wordI_fields w]
    rcases decodeI_cases h with ⟨hop, rfl⟩ | ⟨hop, rfl⟩ | ⟨hop, rfl⟩ | ⟨hop, rfl⟩ | ⟨hop, rfl⟩ <;> rw [hop] <;>
      exact Laws.EncodesInRow.and_ones _

/-- The decoder at the default map, in one line: the used bits of the word are the instruction's encoding. -/
theorem decode_eq_some_iff {w : Word} {i : Instr} : decode w = some i ↔ w &&& usedBits i = encode i :=
  ⟨usedBits_of_decode, decode_of_usedBits⟩

/-- Settles O3: `decode_eq_some_iff`, from left to right. -/
theorem encodeOfDecodeClearsIgnoredBits : Obligations.EncodeOfDecodeClearsIgnoredBits :=
  fun _ _ h => (decode_eq_some_iff.mp h).symm

/-- Settles O4: by `decode_eq_some_iff` the decoder sees the used bits only. -/
theorem ignoredBitsDoNotMatter : Obligations.IgnoredBitsDoNotMatter :=
  fun _ _ _ h hw => decode_eq_some_iff.mpr (hw.trans (decode_eq_some_iff.mp h))

/-! ### The mask and match table (R79) -/

/-- Every instruction's encoding lies in its own row of the table. -/
theorem encode_and_rowMask (i : Instr) : encode i &&& rowMask i = rowMatch i := by
  cases i
  case add => exact (Laws.EncodesInRow.add ..).1
  case sub => exact (Laws.EncodesInRow.sub ..).1
  case and => exact (Laws.EncodesInRow.and ..).1
  case or => exact (Laws.EncodesInRow.or ..).1
  case slt => exact (Laws.EncodesInRow.slt ..).1
  case sll => exact (Laws.EncodesInRow.sll ..).1
  case srl => exact (Laws.EncodesInRow.srl ..).1
  case jr => exact (Laws.EncodesInRow.jr ..).1
  case addi => exact (Laws.EncodesInRow.addi ..).1
  case lw => exact (Laws.EncodesInRow.lw ..).1
  case sw => exact (Laws.EncodesInRow.sw ..).1
  case beq => exact (Laws.EncodesInRow.beq ..).1
  case bne => exact (Laws.EncodesInRow.bne ..).1
  case j => exact (Laws.EncodesInRow.j ..).1
  case jal => exact (Laws.EncodesInRow.jal ..).1

/-- The selecting bits are among the used bits. -/
theorem usedBits_and_rowMask (i : Instr) : usedBits i &&& rowMask i = rowMask i := by
  cases i <;> simp only [usedBits, rowMask] <;> decide

/-- A word that decodes lies in its instruction's row. -/
theorem rowMatch_of_decode {w : Word} {i : Instr} (h : decode w = some i) : w &&& rowMask i = rowMatch i := by
  calc w &&& rowMask i = w &&& usedBits i &&& rowMask i := by rw [BitVec.and_assoc, usedBits_and_rowMask]
    _ = rowMatch i := by rw [decode_eq_some_iff.mp h, encode_and_rowMask]

/-- A word in an R-type row is an R-type word of the row's funct. -/
theorem eq_wordR_of_selects {w row : Word} (h : w &&& 0xFC00003F#32 = row) (h0 : fieldOpcode row = 0#6) :
    w = wordR (fieldRs w) (fieldRt w) (fieldRd w) (fieldShamt w) (fieldFunct row) := by
  have hop : fieldOpcode w = 0#6 := (extractLsb'_eq_of_and_eq h rfl).trans h0
  have hf : fieldFunct w = fieldFunct row := extractLsb'_eq_of_and_eq h rfl
  rw [← hf, wordR_fields w hop]

/-- A word in a row selected by the opcode alone has the row's opcode. -/
theorem fieldOpcode_of_selects {w row : Word} (h : w &&& 0xFC000000#32 = row) : fieldOpcode w = fieldOpcode row :=
  extractLsb'_eq_of_and_eq h rfl

/-- Settles O6: `rowMatch_of_decode`; and a word in a row is a word of the row's selector, which decodes to the row's
instruction with the word's own fields as operands. -/
theorem decodeAgreesWithMaskAndMatch : Obligations.DecodeAgreesWithMaskAndMatch := by
  refine ⟨fun _ _ => rowMatch_of_decode, fun w j h => ?_⟩
  cases j <;> simp only [rowMask, rowMatch] at h
  case add | sub | and | or | slt | sll | srl | jr =>
    rw [eq_wordR_of_selects h rfl, decode_wordR]
    exact ⟨_, rfl, rfl, rfl⟩
  case addi | lw | sw | beq | bne =>
    rw [← wordI_fields w, fieldOpcode_of_selects h, decode_wordI]
    · exact ⟨_, rfl, rfl, rfl⟩
    all_goals decide
  case j | jal =>
    rw [← wordJ_fields w, fieldOpcode_of_selects h, decode_wordJ]
    · exact ⟨_, rfl, rfl, rfl⟩
    · decide

/-! ### Reserved words and the halt sentinel (R81, R82) -/

/-- A chain of tests answers nothing exactly when no test holds: one link. -/
theorem ite_some_eq_none {c : Prop} [Decidable c] {a : Instr} {e : Option Instr} :
    (if c then some a else e) = none ↔ ¬c ∧ e = none := by
  by_cases hc : c <;> simp [hc]

/-- Settles O5: by the opcode the word is an R-type word, a jump, which always decodes, or an I-type word. -/
theorem reservedWordsAreExactlyTheListed : Obligations.ReservedWordsAreExactlyTheListed := by
  intro w
  by_cases hR : fieldOpcode w = 0#6
  · have hdec := decode_wordR (fieldRs w) (fieldRt w) (fieldRd w) (fieldShamt w) (fieldFunct w)
    rw [wordR_fields w hR] at hdec
    simp only [hdec, hR, ite_some_eq_none, List.mem_cons, List.not_mem_nil, not_or]
    tauto
  · by_cases hJ : fieldOpcode w = 2#6 ∨ fieldOpcode w = 3#6
    · have hdec := decode_wordJ hJ (fieldAddr w)
      rw [wordJ_fields w] at hdec
      rcases hJ with h | h <;> simp [hdec, h]
    · have hdec := decode_wordI hR hJ (fieldRs w) (fieldRt w) (fieldImm w)
      rw [wordI_fields w] at hdec
      simp only [hdec, ite_some_eq_none, List.mem_cons, List.not_mem_nil, not_or]
      tauto

/-- `sll` is the only instruction whose row selects with zeros. -/
theorem eq_sll_of_rowMatch_eq_zero {i : Instr} (h : rowMatch i = 0#32) : ∃ rd rt sh, i = .sll rd rt sh := by
  cases i
  case sll rd rt sh => exact ⟨rd, rt, sh, rfl⟩
  all_goals exact absurd h (by simp [rowMatch])

/-- A shift's word is all zero exactly when its operands are. -/
theorem encode_sll_eq_zero_iff (rd rt : RegIx) (sh : Shamt) :
    encode (.sll rd rt sh) = 0#32 ↔ rd = 0#5 ∧ rt = 0#5 ∧ sh = 0#5 := by
  refine ⟨fun h => ⟨?_, ?_, ?_⟩, fun ⟨hrd, hrt, hsh⟩ => by rw [hrd, hrt, hsh]; rfl⟩
  · exact (fieldRd_wordR ..).symm.trans (congrArg fieldRd h)
  · exact (fieldRt_wordR ..).symm.trans (congrArg fieldRt h)
  · exact (fieldShamt_wordR ..).symm.trans (congrArg fieldShamt h)

/-- Settles O7: a zero word lies in the row of `sll`, and there its operands are 0. -/
theorem illFormedExactlyWhenEncodedAsHalt : Obligations.IllFormedExactlyWhenEncodedAsHalt := by
  intro i
  constructor
  · intro h
    cases i
    case sll rd rt sh =>
      refine (encode_sll_eq_zero_iff rd rt sh).mpr ?_
      simpa [Instr.wellFormed, and_assoc] using h
    all_goals exact absurd h (by simp [Instr.wellFormed])
  · intro h
    have hrow : rowMatch i = 0#32 := by rw [← encode_and_rowMask i, h, BitVec.zero_and]
    obtain ⟨rd, rt, sh, rfl⟩ := eq_sll_of_rowMatch_eq_zero hrow
    obtain ⟨rfl, rfl, rfl⟩ := (encode_sll_eq_zero_iff rd rt sh).mp h
    rfl

/-- Settles O1: the decoder evaluated on the fifteen words. -/
theorem exampleWordsDecode : Obligations.ExampleWordsDecode := by
  unfold Obligations.ExampleWordsDecode
  decide

end Sys2Proof.Machine
end

section
/-!
PROOF. Immediates, targets and addresses as numbers (00_scope.md R13, 30_encoding.md R76, 43_load_store.md R160,
44_control_transfer.md R180, R182), and the register file's calls by index (10_state.md R24).
-/

namespace Sys2Proof.Machine

/-! ### Immediates (R13, R76) -/

/-- The signed reading of the sign-extended immediate is the signed immediate. -/
theorem s32_sext32 (imm : Imm16) : s32 (sext32 imm) = imm.toInt := BitVec.toInt_signExtend_of_le (by decide)

/-- A signed immediate's range. -/
theorem toInt_imm_bounds (imm : Imm16) : -32768 ≤ imm.toInt ∧ imm.toInt ≤ 32767 := by
  have hlo : -2 ^ 15 ≤ imm.toInt := BitVec.le_toInt imm
  have hhi : imm.toInt < 2 ^ 15 := BitVec.toInt_lt
  omega

/-- R13's formula: above bit 15 stands the sign bit, which the mask sets or the zero extension leaves 0. -/
theorem sext32_eq_ite (imm : Imm16) :
    sext32 imm = if imm.getLsbD 15 then imm.setWidth 32 ||| 0xFFFF0000#32 else imm.setWidth 32 := by
  refine BitVec.eq_of_getLsbD_eq fun k hk => ?_
  have hmask : (0xFFFF0000#32).getLsbD k = decide (16 ≤ k) := by interval_cases k <;> rfl
  have hlow : (imm.setWidth 32).getLsbD k = imm.getLsbD k := by rw [BitVec.getLsbD_setWidth]; simp [hk]
  have hsign : (sext32 imm).getLsbD k = if k < 16 then imm.getLsbD k else imm.getLsbD 15 := by
    rw [sext32, BitVec.getLsbD_signExtend, BitVec.msb_eq_getLsbD_last]
    simp only [hk, decide_true, Bool.true_and]
  rw [hsign, apply_ite (BitVec.getLsbD · k), BitVec.getLsbD_or, hmask, hlow]
  by_cases h16 : k < 16
  · simp only [h16, show ¬16 ≤ k by omega, decide_false, Bool.or_false, if_true, ite_self]
  · have hhigh : imm.getLsbD k = false := BitVec.getLsbD_of_ge imm k (by omega)
    simp only [h16, show 16 ≤ k by omega, hhigh, decide_true, Bool.or_true, if_false]
    cases imm.getLsbD 15 <;> rfl

/-- The branch displacement is four times the signed immediate, and no bit of it is lost. -/
theorem s32_sext32_shiftLeft (imm : Imm16) : s32 (sext32 imm <<< 2) = 4 * imm.toInt := by
  have hmul : sext32 imm <<< 2 = sext32 imm * 4#32 := BitVec.shiftLeft_eq_mul_twoPow ..
  have h4 : (4#32 : Word).toInt = 4 := rfl
  obtain ⟨hlo, hhi⟩ := toInt_imm_bounds imm
  calc s32 (sext32 imm <<< 2) = (imm.toInt * 4).bmod (2 ^ 32) := by
        rw [hmul, s32_eq_toInt, BitVec.toInt_mul, h4, ← s32_eq_toInt, s32_sext32]
    _ = imm.toInt * 4 := Int.bmod_eq_of_le (by omega) (by omega)
    _ = 4 * imm.toInt := Int.mul_comm ..

/-- The bits of a jump target: two zeros, the field, and the top four bits of the pc (R182). -/
theorem getLsbD_jumpTarget (pc : Word) (addr : Addr26) {k : Nat} (hk : k < 32) :
    (jumpTarget pc addr).getLsbD k =
      if k < 2 then false else if k < 28 then addr.getLsbD (k - 2) else pc.getLsbD k := by
  have hmask : (0xF0000000#32).getLsbD k = decide (28 ≤ k) := by interval_cases k <;> rfl
  have hfield : (addr.setWidth 32 <<< 2).getLsbD k = (!decide (k < 2) && addr.getLsbD (k - 2)) := by
    rw [BitVec.getLsbD_shiftLeft, BitVec.getLsbD_setWidth]
    simp only [hk, show k - 2 < 32 by omega, decide_true, Bool.true_and]
  rw [jumpTarget, BitVec.getLsbD_or, BitVec.getLsbD_and, hmask, hfield]
  by_cases h2 : k < 2
  · simp [h2, show ¬28 ≤ k by omega]
  · by_cases h28 : k < 28
    · simp [h2, h28]
    · simp [h2, h28, show 28 ≤ k by omega, BitVec.getLsbD_of_ge addr (k - 2) (by omega)]

/-- Settles O9: each part by its lemma above; the branch target adds the displacement by its definition. -/
theorem immediatesAreAssembledFromTheBits : Obligations.ImmediatesAreAssembledFromTheBits := by
  refine ⟨fun imm => ⟨sext32_eq_ite imm, s32_sext32 imm, ?_⟩, fun pc imm => ?_, fun sh => ⟨rfl, ?_⟩,
    fun pc addr k hk => getLsbD_jumpTarget pc addr hk⟩
  · rw [s32_sext32]
    exact toInt_imm_bounds imm
  · obtain ⟨hlo, hhi⟩ := toInt_imm_bounds imm
    rw [s32_sext32_shiftLeft, branchTarget_eq_toInt]
    exact ⟨rfl, by omega, by omega, by omega⟩
  · have hsh : sh.toNat < 32 := sh.isLt
    rw [shiftAmount]
    omega

/-! ### The effective address (R160) -/

/-- Settles O15: the sum is of integers, so it has the sum of the two ranges. -/
theorem effectiveAddressIsTheExactSum : Obligations.EffectiveAddressIsTheExactSum := by
  intro base imm
  have hb := toInt_imm_bounds imm
  have hbase : u32 base < 2 ^ 32 := base.isLt
  have hea : effectiveAddress base imm = (u32 base : Int) + imm.toInt := by rw [effectiveAddress, s32_sext32]
  rw [hea]
  omega

/-! ### The register file's calls by index (R24) -/

/-- An index outside 0 to 31 is the invalid-register error. -/
theorem registerIndex_error {n : Int} (h : n < 0 ∨ 32 ≤ n) : registerIndex n = .error (.invalidRegister n) :=
  if_neg (by omega)

/-- An index from 0 to 31 is that register. -/
theorem registerIndex_ok {n : Int} (h0 : 0 ≤ n) (h32 : n < 32) : registerIndex n = .ok (BitVec.ofInt 5 n) :=
  if_pos ⟨h0, h32⟩

/-- Index 0 is the only one that is register 0. -/
theorem ofInt_eq_zero_iff {n : Int} (h0 : 0 ≤ n) (h32 : n < 32) : BitVec.ofInt 5 n = 0#5 ↔ n = 0 := by
  rw [← BitVec.toNat_inj, BitVec.toNat_ofInt]
  simp only [BitVec.toNat_ofNat]
  omega

/-- The toolchain reads every canonical name as the register that has it (R21, R92). -/
theorem registerOf_regNames : ∀ r : RegIx, registerOf (regNames.getD r.toNat []) = .ok r := by decide

/-- Settles O11: the three calls share the index check; past it they are the file's ports and table of names. -/
theorem registerCallsCheckTheirIndex : Obligations.RegisterCallsCheckTheirIndex := by
  refine ⟨fun s n v h => ?_, fun s n v h0 h32 => ?_⟩
  · simp only [readByIndex, writeByIndex, nameByIndex, registerIndex_error h, and_self]
  · simp only [readByIndex, writeByIndex, nameByIndex, registerIndex_ok h0 h32]
    refine ⟨_, rfl, ?_, _, rfl, registerOf_regNames _⟩
    by_cases hn : n = 0
    · rw [if_pos hn, (ofInt_eq_zero_iff h0 h32).mpr hn, readReg_zero]
    · rw [if_neg hn, readReg_writeReg_self s _ fun h => hn ((ofInt_eq_zero_iff h0 h32).mp h)]

end Sys2Proof.Machine
end

section
/-!
PROOF. The memory arrays (20_memory.md): read after write in either byte order, the canonical form as extensional data,
and the instruction fetch (R55, R56).
-/

namespace Sys2Proof.Machine

/-! ### Read after write (R53, R59) -/

/-- Every byte outside a written word is as before, in either byte order. -/
theorem memGet_writeWordIn_ne (o : ByteOrder) (m : Memory) {a b : Nat} (v : Word) (h : b < a ∨ a + 4 ≤ b) :
    memGet (writeWordIn o m a v) b = memGet m b := by
  simp only [writeWordIn, memGet_memSet]
  rw [if_neg (by omega), if_neg (by omega), if_neg (by omega), if_neg (by omega)]

/-- The word just written reads back, in either byte order. -/
theorem readWordIn_writeWordIn_self (o : ByteOrder) (m : Memory) (a : Nat) (v : Word) :
    readWordIn o (writeWordIn o m a v) a = v := by
  obtain ⟨h0, h1, h2, h3⟩ := memGet_writeWordIn o m a v
  rw [readWordIn, h0, h1, h2, h3, bytesWord_wordBytes]

/-- A word that does not overlap the one written reads as before, in either byte order. -/
theorem readWordIn_writeWordIn_ne (o : ByteOrder) (m : Memory) {a b : Nat} (v : Word) (h : b + 4 ≤ a ∨ a + 4 ≤ b) :
    readWordIn o (writeWordIn o m a v) b = readWordIn o m b := by
  simp only [readWordIn]
  rw [memGet_writeWordIn_ne, memGet_writeWordIn_ne, memGet_writeWordIn_ne, memGet_writeWordIn_ne] <;> omega

/-- Settles O12: two aligned words are the same or do not overlap. -/
theorem wordReadAfterWriteInEitherByteOrder : Obligations.WordReadAfterWriteInEitherByteOrder := by
  intro o m a b v ha hb
  by_cases h : b = a
  · rw [if_pos h, h, readWordIn_writeWordIn_self]
  · rw [if_neg h, readWordIn_writeWordIn_ne o m v (by omega)]

/-! ### The canonical form -/

/-- In canonical form the cells are exactly the addresses that read other than unlisted, with the byte they read. -/
theorem mem_iff_memGet {m : Memory} (h : Memory.wf m) (c : Host.Cell) :
    c ∈ m ↔ c.2 ≠ Memory.unlisted ∧ memGet m c.1 = c.2 := by
  obtain ⟨hrise, hlisted⟩ := h
  induction m with
  | nil => simp only [List.not_mem_nil, memGet_nil, false_iff, not_and]; exact fun hc => Ne.symm hc
  | cons d m ih =>
    obtain ⟨hd, hrest⟩ := List.pairwise_cons.mp hrise
    have ih := ih hrest fun e he => hlisted e (List.mem_cons_of_mem d he)
    rw [List.mem_cons, memGet]
    by_cases ha : d.1 = c.1
    · have hnot : c ∉ m := fun hc => absurd ha (Nat.ne_of_lt (hd c hc))
      rw [if_pos ha, or_iff_left hnot]
      constructor
      · rintro rfl
        exact ⟨hlisted c (List.mem_cons_self ..), rfl⟩
      · exact fun hv => Prod.ext ha.symm hv.2.symm
    · have hne : c ≠ d := fun hc => ha (congrArg Prod.fst hc).symm
      rw [if_neg ha, or_iff_right hne, ih]

/-- Memories in canonical form with the same cells are the same list: their addresses rise. -/
theorem eq_of_wf_of_mem_iff {m m' : Memory} (h : Memory.wf m) (h' : Memory.wf m') (hmem : ∀ c, c ∈ m ↔ c ∈ m') :
    m = m' := by
  have hnodup : ∀ {l : Memory}, Memory.wf l → l.Nodup := fun hl =>
    hl.1.imp fun hlt he => absurd (congrArg Prod.fst he) (Nat.ne_of_lt hlt)
  have hperm : m.Perm m' := (List.perm_ext_iff_of_nodup (hnodup h) (hnodup h')).mpr hmem
  exact hperm.eq_of_pairwise (fun c d _ _ hcd hdc => absurd hcd (Nat.lt_asymm hdc)) h.1 h'.1

/-- Settles O13: in canonical form the reads determine the cells, and the cells the list. -/
theorem canonicalMemoriesAreEqualWhenTheyReadEqual : Obligations.CanonicalMemoriesAreEqualWhenTheyReadEqual :=
  fun _ _ h h' hread => eq_of_wf_of_mem_iff h h' fun c => by rw [mem_iff_memGet h, mem_iff_memGet h', hread]

/-! ### The fetch (R55, R56, R104) -/

/-- A word from the bound of the listed addresses on is 0. -/
theorem readWord_of_below {m : Memory} {n a : Nat} (h : Memory.below n m) (ha : n ≤ a) : readWord m a = 0#32 := by
  have hbyte : ∀ b, n ≤ b → memGet m b = Memory.unlisted := fun b hb =>
    memGet_of_absent fun c hc => Nat.ne_of_lt (Nat.lt_of_lt_of_le (h c hc) hb)
  rw [readWord, readWordIn, hbyte a ha, hbyte (a + 1) (by omega), hbyte (a + 2) (by omega), hbyte (a + 3) (by omega)]
  rfl

/-- Inside capacity a fetch at an aligned pc is the word at the pc. -/
theorem iFetch_of_lt (m : Memory) {pc : Word} (ha : u32 pc % 4 = 0) (h : u32 pc < 4 * Config.imemWords) :
    iFetch m pc = readWord m (u32 pc) := by
  have hidx : u32 pc / 4 < Config.imemWords := by omega
  have haddr : 4 * (u32 pc / 4) = u32 pc := by omega
  rw [iFetch, if_pos hidx, haddr]

/-- A fetch at an aligned pc from the bound of the listed addresses on is 0, inside capacity and beyond it. -/
theorem iFetch_of_below {m : Memory} {n : Nat} {pc : Word} (hm : Memory.below n m) (ha : u32 pc % 4 = 0)
    (h : n ≤ u32 pc) : iFetch m pc = 0#32 := by
  by_cases hcap : u32 pc < 4 * Config.imemWords
  · rw [iFetch_of_lt m ha hcap, readWord_of_below hm h]
  · have hidx : ¬u32 pc / 4 < Config.imemWords := by omega
    exact if_neg hidx

/-- Settles O14: the program fits its memory, and the invariant lists nothing past the program. -/
theorem fetchReadsTheWordOrZero : Obligations.FetchReadsTheWordOrZero := by
  intro s pc hinv ha
  obtain ⟨-, -, hbelow, hfits, -, -⟩ := hinv
  exact ⟨fun h => iFetch_of_lt s.imem ha (by omega), fun h => iFetch_of_below hbelow ha h⟩

end Sys2Proof.Machine
end

section
/-!
PROOF. Loads and stores (43_load_store.md R161, R162; 20_memory.md R62), and what every instruction does to the register
file, the memories and the pc (10_state.md R27, R34; 20_memory.md R65; 40_datapath_cycle.md R110).
-/

namespace Sys2Proof.Machine

/-! ### The two ways each data access ends -/

/-- A load at an address that passes the checks is a write-back of the word there. -/
theorem exec_lw_of_ok {rt rs : RegIx} {imm : Imm16} {s : State} {a : Nat}
    (h : dataAddress (effectiveAddress (readReg s rs) imm) = .ok a) :
    exec (.lw rt rs imm) s = writeBack rt (readWord s.dmem a) s := by
  simp only [exec, execLw, memRead, h]

/-- A load at an address that fails the checks is their fault, whatever the destination. -/
theorem exec_lw_of_error {rt rs : RegIx} {imm : Imm16} {s : State} {f : Fault}
    (h : dataAddress (effectiveAddress (readReg s rs) imm) = .error f) : exec (.lw rt rs imm) s = .fault f := by
  simp only [exec, execLw, memRead, h, raise]

/-- A store at an address that passes the checks writes the word there and auto-advances. -/
theorem exec_sw_of_ok {rt rs : RegIx} {imm : Imm16} {s : State} {a : Nat}
    (h : dataAddress (effectiveAddress (readReg s rs) imm) = .ok a) :
    exec (.sw rt rs imm) s = .next (advance { s with dmem := writeWord s.dmem a (readReg s rt) }) := by
  simp only [exec, execSw, memWrite, h]

/-- A store at an address that fails the checks is their fault. -/
theorem exec_sw_of_error {rt rs : RegIx} {imm : Imm16} {s : State} {f : Fault}
    (h : dataAddress (effectiveAddress (readReg s rs) imm) = .error f) : exec (.sw rt rs imm) s = .fault f := by
  simp only [exec, execSw, memWrite, h, raise]

/-- A store that completes passed the checks. -/
theorem exec_sw_next {rt rs : RegIx} {imm : Imm16} {s t : State} (h : exec (.sw rt rs imm) s = .next t) :
    ∃ a, dataAddress (effectiveAddress (readReg s rs) imm) = .ok a
      ∧ t = advance { s with dmem := writeWord s.dmem a (readReg s rt) } := by
  cases hc : dataAddress (effectiveAddress (readReg s rs) imm) with
  | error f => exact absurd ((exec_sw_of_error hc).symm.trans h) (raise_ne_next f t)
  | ok a => exact ⟨a, rfl, Host.Outcome.next.inj (h.symm.trans (exec_sw_of_ok hc))⟩

/-! ### The faults of the checks (R52, R53) -/

/-- A misaligned address is the alignment fault, in range or not (log 4). -/
theorem dataAddress_misaligned {ea : Int} (h : ea % 4 ≠ 0) : dataAddress ea = .error (.memoryAlignmentError ea) :=
  if_pos h

/-- An aligned address outside data memory is the range fault. -/
theorem dataAddress_outOfRange {ea : Int} (h4 : ea % 4 = 0) (h : ea < 0 ∨ (Config.dmemBytes : Int) ≤ ea) :
    dataAddress ea = .error (.memoryRangeError ea) := by
  rw [dataAddress, if_neg (not_not.mpr h4), if_pos h]

/-- Settles O24: the checks pass, so `lw` is a write-back. -/
theorem lwLoadsTheWord : Obligations.LwLoadsTheWord := by
  intro rt rs imm s ea h4 h0 hn
  rw [exec_lw_of_ok (dataAddress_ok h4 h0 hn)]
  exact writeBack_writesOnly rt _ s

/-- Settles O25: the checks pass, so `sw` is a word write, with that write's frame. -/
theorem swStoresTheWord : Obligations.SwStoresTheWord := by
  intro rt rs imm s ea h4 h0 hn
  refine ⟨_, exec_sw_of_ok (dataAddress_ok h4 h0 hn), ?_, fun b hb => ?_, fun r => ?_, .of_eq rfl rfl rfl, rfl⟩
  · exact readWord_writeWord_self s.dmem ea.toNat (readReg s rt)
  · exact memGet_writeWord_ne s.dmem (readReg s rt) hb
  · rw [readReg_advance, readReg_withDmem]

/-- Settles O26: both instructions raise the fault of the shared checks. -/
theorem badDataAddressFaults : Obligations.BadDataAddressFaults := by
  intro rt rs imm s ea
  refine ⟨fun h4 _ _ => ?misaligned, fun h4 hr => ?outOfRange, fun h4 _ => ⟨_, .inl rfl, ?both⟩⟩
  case misaligned | both =>
    have hc := dataAddress_misaligned h4
    exact ⟨exec_lw_of_error hc, exec_sw_of_error hc⟩
  case outOfRange =>
    have hc := dataAddress_outOfRange h4 hr
    exact ⟨exec_lw_of_error hc, exec_sw_of_error hc⟩

/-- A write-back leaves its value in its destination, or 0 where that is register 0. -/
theorem exists_readReg_of_writeBack (d : RegIx) (v : Word) (s : State) :
    ∃ t, writeBack d v s = .next t ∧ readReg t d = if d = 0#5 then 0#32 else v := by
  obtain ⟨t, ht, hread, -⟩ := writeBack_writesOnly d v s
  exact ⟨t, ht, hread⟩

/-- Settles O27: the load passes the checks the store passed, and reads the word it wrote; another aligned word does not
overlap it. -/
theorem loadAfterStoreGivesTheWordStored : Obligations.LoadAfterStoreGivesTheWordStored := by
  intro rt rs imm s t h
  obtain ⟨a, ha, rfl⟩ := exec_sw_next h
  refine ⟨fun rt' rs' imm' hea => ?load, fun b hb hne => ?other⟩
  case load =>
    rw [exec_lw_of_ok (hea ▸ ha), advance_dmem, readWord_writeWord_self]
    exact exists_readReg_of_writeBack rt' _ _
  case other =>
    obtain ⟨h4, h0, -, rfl⟩ := (dataAddress_ok_iff _ a).mp ha
    exact readWord_writeWord_ne s.dmem _ (by omega)

/-! ### Every instruction (R27, R34, R65, R110) -/

/-- Settles O33: of the four ways to complete, two write a register, and it is the destination. -/
theorem onlyTheListedRegistersAreWritten : Obligations.OnlyTheListedRegistersAreWritten := by
  intro i s t h r hr
  rcases exec_cases h with ⟨d, v, hd, rfl, -⟩ | ⟨rt, rs, imm, a, -, -, rfl⟩ | ⟨target, -, rfl, -⟩ | ⟨a, rfl, rfl⟩
  · have hne : r ≠ d := fun e => hr (e ▸ hd)
    rw [readReg_advance, SameRegsBut.of_writeReg s d v r hne]
  · rw [readReg_advance, readReg_withDmem]
  · rw [readReg_jumpTo]
  · have hne : r ≠ linkReg := fun e => hr (e ▸ rfl)
    rw [readReg_jumpTo, SameRegsBut.of_writeReg s linkReg _ r hne]

/-- The first step of a run that completes. -/
theorem run_succ_next {M : Host.Core} {k : Nat} {s t : M.State} (h : M.run (k + 1) s = .next t) :
    ∃ s', M.step s = .next s' ∧ M.run k s' = .next t := by
  rw [Host.Core.run] at h
  split at h
  · next s' hs => exact ⟨s', hs, h⟩
  · simp at h
  · simp at h

/-- No number of steps touches the program (R65). -/
theorem core_run_program {k : Nat} {s t : State} (h : Host.Core.run Sys2Proof.core k s = .next t) :
    t.imem = s.imem ∧ t.progLen = s.progLen ∧ t.loaded = s.loaded := by
  induction k generalizing s with
  | zero =>
    obtain rfl : s = t := Host.Outcome.next.inj h
    exact ⟨rfl, rfl, rfl⟩
  | succ k ih =>
    obtain ⟨s', hstep, hrun⟩ := run_succ_next h
    obtain ⟨hi, hp, hl⟩ := step_program hstep
    obtain ⟨hi', hp', hl'⟩ := ih hrun
    exact ⟨hi'.trans hi, hp'.trans hp, hl'.trans hl⟩

/-- Only a store changes data memory (R34). -/
theorem exec_dmem {i : Instr} {s t : State} (h : exec i s = .next t) (hsw : ∀ rt rs imm, i ≠ .sw rt rs imm) :
    t.dmem = s.dmem := by
  rcases exec_cases h with ⟨d, v, -, rfl, -⟩ | ⟨rt, rs, imm, a, hi, -, -⟩ | ⟨target, -, rfl, -⟩ | ⟨a, -, rfl⟩
  · rw [advance_dmem, writeReg_dmem]
  · exact absurd hi (hsw rt rs imm)
  · rw [jumpTo_dmem]
  · rw [jumpTo_dmem, writeReg_dmem]

/-- Settles O34: `core_run_program` for the program, `exec_dmem` for data memory. -/
theorem theInstructionStreamIsFixed : Obligations.TheInstructionStreamIsFixed := by
  refine ⟨fun k s t h => ?_, fun i s t h hsw a => by rw [exec_dmem h hsw]⟩
  obtain ⟨hi, hp, hl⟩ := core_run_program h
  exact ⟨hi, hp, hl, fun pc => by rw [hi]⟩

/-! ### The next pc (R110, R180) -/

/-- The branch adder on patterns gives the branch target modulo 2^32. -/
theorem ofInt_branchTarget (pc : Word) (imm : Imm16) :
    BitVec.ofInt 32 (branchTarget pc imm) = pc + 4#32 + (sext32 imm <<< 2) := by
  have hmul : sext32 imm <<< 2 = sext32 imm * 4#32 := BitVec.shiftLeft_eq_mul_twoPow ..
  rw [branchTarget, s32_eq_toInt, hmul, BitVec.ofInt_add, BitVec.ofInt_add, BitVec.ofInt_mul, BitVec.ofInt_toInt,
    u32_eq_toNat, BitVec.ofInt_natCast, BitVec.ofNat_toNat, BitVec.setWidth_eq]
  rfl

/-- A branch that completes leaves the pc at the adder's sum when it is taken and at the next instruction otherwise. -/
theorem branchWhen_next_pc {taken : Bool} {imm : Imm16} {s t : State} (h : branchWhen taken imm s = .next t) :
    t.pc = if taken then s.pc + 4#32 + (sext32 imm <<< 2) else s.pc + 4#32 := by
  rcases branchWhen_cases taken imm s with ⟨rfl, e⟩ | ⟨-, -, e⟩ | ⟨rfl, -, e⟩
  · obtain rfl : advance s = t := Host.Outcome.next.inj (e.symm.trans h)
    rfl
  · exact absurd (e.symm.trans h) (raise_ne_next _ t)
  · obtain rfl : jumpTo s _ = t := Host.Outcome.next.inj (e.symm.trans h)
    exact ofInt_branchTarget s.pc imm

/-- A write-back that completes leaves the pc at the next instruction. -/
theorem writeBack_next_pc {d : RegIx} {v : Word} {s t : State} (h : writeBack d v s = .next t) :
    t.pc = s.pc + 4#32 := by
  rw [writeBack_next h, advance_pc, writeReg_pc]

/-- Settles O35: write-backs and stores auto-advance, branches take their adder or auto-advance, and jumps set the
pc. -/
theorem theNextPcIsTheMultiplexersChoice : Obligations.TheNextPcIsTheMultiplexersChoice := by
  intro i s t h
  cases i
  case add | sub | and | or | slt | sll | srl | addi => exact writeBack_next_pc h
  case lw rt rs imm =>
    cases hc : dataAddress (effectiveAddress (readReg s rs) imm) with
    | error f => exact absurd ((exec_lw_of_error hc).symm.trans h) (raise_ne_next f t)
    | ok a => exact writeBack_next_pc ((exec_lw_of_ok hc).symm.trans h)
  case sw rt rs imm =>
    obtain ⟨a, -, rfl⟩ := exec_sw_next h
    rfl
  case beq rs rt imm =>
    rw [branchWhen_next_pc ((exec_beq rs rt imm s).symm.trans h)]
    simp only [decide_eq_true_eq]
  case bne rs rt imm =>
    rw [branchWhen_next_pc ((exec_bne rs rt imm s).symm.trans h)]
    simp only [Bool.not_eq_true', decide_eq_false_iff_not, ite_not]
  case j addr | jr rs | jal addr =>
    obtain rfl := Host.Outcome.next.inj h
    rfl

end Sys2Proof.Machine
end

section
/-!
PROOF. The datapath of units, multiplexers and control signals (40_datapath_cycle.md R108 to R110, R113 to R115): row by
row of the control table, what the datapath answers when the wires carry the row, its don't-care entries free (D19).
-/

namespace Sys2Proof.Machine

/-! ### The commit (R109, R110) -/

/-- The commit of a register write and of a pc, with data memory as it was. -/
theorem commit_writeReg (s : State) (d : RegIx) (v pc' : Word) :
    { writeReg s d v with dmem := s.dmem, pc := pc' } = jumpTo (writeReg s d v) pc' := by
  rw [jumpTo, ← writeReg_dmem s d v]

/-- Auto-advance after a register write, as the pc multiplexer computes it from the pc at fetch. -/
theorem jumpTo_writeReg_pc4 (s : State) (d : RegIx) (v : Word) :
    jumpTo (writeReg s d v) (s.pc + 4#32) = advance (writeReg s d v) := by
  rw [advance, jumpTo, writeReg_pc]

/-- A selected branch target answers what a taken branch does (R181). -/
theorem branchUnit_eq_branchWhen (imm : Imm16) (s : State) :
    (match branchUnit s.pc imm with
      | .error f => raise f
      | .ok pc' => .next (jumpTo s pc')) = branchWhen true imm s := by
  by_cases h : branchTarget s.pc imm < 0 <;> simp only [branchUnit, branchWhen, h, if_true, if_false]

/-! ### The rows of the control table (R115) -/

section Rows

variable {k : ControlWires} (w : Word) (s : State)

/-- The register-register ALU and shift instructions write the ALU's output back. -/
theorem datapathExec_rowAlu {op : AluOp} (h : (rowAlu op).drives k = true) :
    datapathExec k w s =
      writeBack (fieldRd w) (aluUnit op (readReg s (fieldRs w)) (readReg s (fieldRt w)) (fieldShamt w)) s := by
  obtain ⟨_, _, _, _, _, _, _, _⟩ := k
  simp only [rowAlu, ControlRow.drives, Option.all_some, Bool.and_eq_true, beq_iff_eq, and_assoc] at h
  obtain ⟨rfl, rfl, rfl, rfl, rfl, rfl, rfl, rfl⟩ := h
  simp only [datapathExec, memoryUnit, pcMux, wbMux, dstMux, Bool.false_eq_true, if_true, if_false, commit_writeReg,
    jumpTo_writeReg_pc4, writeBack]

/-- `addi` takes the immediate as the second operand. -/
theorem datapathExec_addi {rt rs : RegIx} {imm : Imm16} (h : (controlRow (.addi rt rs imm)).drives k = true) :
    datapathExec k w s = execAddi (fieldRt w) (fieldRs w) (fieldImm w) s := by
  obtain ⟨_, _, _, _, _, _, _, _⟩ := k
  simp only [controlRow, ControlRow.drives, Option.all_some, Bool.and_eq_true, beq_iff_eq, and_assoc] at h
  obtain ⟨rfl, rfl, rfl, rfl, rfl, rfl, rfl, rfl⟩ := h
  simp only [datapathExec, memoryUnit, pcMux, wbMux, dstMux, Bool.false_eq_true, if_true, if_false, commit_writeReg,
    jumpTo_writeReg_pc4, aluUnit, execAddi, writeBack]

/-- `lw` writes the memory's word back, or raises the read port's fault. -/
theorem datapathExec_lw {rt rs : RegIx} {imm : Imm16} (h : (controlRow (.lw rt rs imm)).drives k = true) :
    datapathExec k w s = execLw (fieldRt w) (fieldRs w) (fieldImm w) s := by
  obtain ⟨_, _, _, _, _, _, _, _⟩ := k
  simp only [controlRow, ControlRow.drives, Option.all_some, Bool.and_eq_true, beq_iff_eq, and_assoc] at h
  obtain ⟨rfl, rfl, rfl, rfl, rfl, rfl, rfl, rfl⟩ := h
  simp only [datapathExec, memoryUnit, if_true, execLw]
  cases memRead s.dmem (effectiveAddress (readReg s (fieldRs w)) (fieldImm w)) with
  | error f => rfl
  | ok v => simp only [pcMux, wbMux, dstMux, commit_writeReg, jumpTo_writeReg_pc4, writeBack]

/-- `sw` writes no register, so its free write-back and destination wires select nothing. -/
theorem datapathExec_sw {rt rs : RegIx} {imm : Imm16} (h : (controlRow (.sw rt rs imm)).drives k = true) :
    datapathExec k w s = execSw (fieldRt w) (fieldRs w) (fieldImm w) s := by
  obtain ⟨_, _, _, _, _, _, _, _⟩ := k
  simp only [controlRow, ControlRow.drives, Option.all_some, Option.all_none, Bool.and_eq_true, beq_iff_eq, and_assoc,
    true_and] at h
  obtain ⟨rfl, rfl, rfl, rfl, rfl, rfl⟩ := h
  simp only [datapathExec, memoryUnit, if_true, Bool.false_eq_true, if_false, execSw]
  cases memWrite s.dmem (effectiveAddress (readReg s (fieldRs w)) (fieldImm w)) (readReg s (fieldRt w)) <;> rfl

/-- `beq` sends the comparator's answer to the pc multiplexer. -/
theorem datapathExec_beq {rt rs : RegIx} {imm : Imm16} (h : (controlRow (.beq rs rt imm)).drives k = true) :
    datapathExec k w s = execBeq (fieldRs w) (fieldRt w) (fieldImm w) s := by
  obtain ⟨_, _, _, _, _, _, _, _⟩ := k
  simp only [controlRow, ControlRow.drives, Option.all_some, Option.all_none, Bool.and_eq_true, beq_iff_eq, and_assoc,
    true_and] at h
  obtain ⟨rfl, rfl, rfl, rfl, rfl, rfl⟩ := h
  simp only [datapathExec, memoryUnit, Bool.false_eq_true, if_false, pcMux, execBeq]
  cases equal (readReg s (fieldRs w)) (readReg s (fieldRt w)) with
  | false => rfl
  | true => exact branchUnit_eq_branchWhen (fieldImm w) s

/-- `bne` sends the comparator's answer to the pc multiplexer, which takes it the other way. -/
theorem datapathExec_bne {rt rs : RegIx} {imm : Imm16} (h : (controlRow (.bne rs rt imm)).drives k = true) :
    datapathExec k w s = execBne (fieldRs w) (fieldRt w) (fieldImm w) s := by
  obtain ⟨_, _, _, _, _, _, _, _⟩ := k
  simp only [controlRow, ControlRow.drives, Option.all_some, Option.all_none, Bool.and_eq_true, beq_iff_eq, and_assoc,
    true_and] at h
  obtain ⟨rfl, rfl, rfl, rfl, rfl, rfl⟩ := h
  simp only [datapathExec, memoryUnit, Bool.false_eq_true, if_false, pcMux, execBne]
  cases equal (readReg s (fieldRs w)) (readReg s (fieldRt w)) with
  | false => exact branchUnit_eq_branchWhen (fieldImm w) s
  | true => rfl

/-- `j` names no wire but those that keep everything as it is. -/
theorem datapathExec_j {a : Addr26} (h : (controlRow (.j a)).drives k = true) :
    datapathExec k w s = execJ (fieldAddr w) s := by
  obtain ⟨_, _, _, _, _, _, _, _⟩ := k
  simp only [controlRow, ControlRow.drives, Option.all_none, Bool.and_eq_true, beq_iff_eq, and_assoc, true_and] at h
  obtain ⟨rfl, rfl, rfl, rfl⟩ := h
  rfl

/-- `jr` too, with the register's value to the pc. -/
theorem datapathExec_jr {rs : RegIx} (h : (controlRow (.jr rs)).drives k = true) :
    datapathExec k w s = execJr (fieldRs w) s := by
  obtain ⟨_, _, _, _, _, _, _, _⟩ := k
  simp only [controlRow, ControlRow.drives, Option.all_none, Bool.and_eq_true, beq_iff_eq, and_assoc, true_and] at h
  obtain ⟨rfl, rfl, rfl, rfl⟩ := h
  rfl

/-- `jal` writes the return address to the link register. -/
theorem datapathExec_jal {a : Addr26} (h : (controlRow (.jal a)).drives k = true) :
    datapathExec k w s = execJal (fieldAddr w) s := by
  obtain ⟨_, _, _, _, _, _, _, _⟩ := k
  simp only [controlRow, ControlRow.drives, Option.all_some, Option.all_none, Bool.and_eq_true, beq_iff_eq, and_assoc,
    true_and] at h
  obtain ⟨rfl, rfl, rfl, rfl, rfl, rfl⟩ := h
  simp only [datapathExec, memoryUnit, pcMux, wbMux, dstMux, Bool.false_eq_true, if_true, if_false, commit_writeReg,
    execJal]

end Rows

/-- Settles O36: a word that decodes is its instruction with the word's own fields as operands, and the instruction's
row drives the datapath on those fields. -/
theorem datapathRefinesTheInstructionRules : Obligations.DatapathRefinesTheInstructionRules := by
  intro w i k s hdec hk
  rcases decode_cases hdec with ⟨-, h⟩ | h | h
  · rcases decodeR_cases h with ⟨-, rfl⟩ | ⟨-, rfl⟩ | ⟨-, rfl⟩ | ⟨-, rfl⟩ | ⟨-, rfl⟩ | ⟨-, rfl⟩ | ⟨-, rfl⟩ | ⟨-, rfl⟩
    iterate 7 exact datapathExec_rowAlu w s hk
    exact datapathExec_jr w s hk
  · rcases decodeJ_cases h with ⟨-, rfl⟩ | ⟨-, rfl⟩
    · exact datapathExec_j w s hk
    · exact datapathExec_jal w s hk
  · rcases decodeI_cases h with ⟨-, rfl⟩ | ⟨-, rfl⟩ | ⟨-, rfl⟩ | ⟨-, rfl⟩ | ⟨-, rfl⟩
    · exact datapathExec_addi w s hk
    · exact datapathExec_lw w s hk
    · exact datapathExec_sw w s hk
    · exact datapathExec_beq w s hk
    · exact datapathExec_bne w s hk

end Sys2Proof.Machine
end

section
/-!
PROOF. The step (40_datapath_cycle.md R100 to R116; 60_exceptions.md R201, R203): the end of a step for each end of its
front, the two views of a step, its outputs, and that stopped machines stay stopped.
-/

namespace Sys2Proof.Machine

/-! ### The ends of a step -/

/-- A front that finds the program's end leaves the state as the next state. -/
theorem step_of_front_completed {s : State} (h : front s = .completed) : step s = .next s := by
  simp only [step, h, completedOutcome]

/-- A front that finds the halt sentinel leaves the state as the next state. -/
theorem step_of_front_halted {s : State} (h : front s = .halted) : step s = .next s := by
  simp only [step, h, haltedOutcome]

/-- A front that finds an instruction makes the step execute it. -/
theorem step_of_front_execute {s : State} {w : Word} {i : Instr} (h : front s = .execute w i) : step s = exec i s := by
  simp only [step, h]

/-- A front that finds the halt sentinel makes the step report Halted, the state unchanged. -/
theorem stepResult_of_front_halted {s : State} (h : front s = .halted) : stepResult s = report s .halted none s := by
  simp only [stepResult, h]

/-- The zero word is the halt sentinel. -/
theorem dispatchWord_zero : dispatchWord 0#32 = .halted := if_pos rfl

/-- A nonzero word that is no instruction is reserved. -/
theorem dispatchWord_reserved {w : Word} (hw : w ≠ 0#32) (hd : decode w = none) :
    dispatchWord w = .error (.reservedInstruction w) := by
  simp only [dispatchWord, if_neg hw, hd]

/-- A nonzero word that decodes is executed. -/
theorem dispatchWord_execute {w : Word} {i : Instr} (hw : w ≠ 0#32) (hd : decode w = some i) :
    dispatchWord w = .execute w i := by
  simp only [dispatchWord, if_neg hw, hd]

/-- What a fault at the front makes of a step: Error with the fault, and nothing changed. -/
theorem step_faults {s : State} {f : Fault} (h : front s = .error f) :
    (stepResult s).status = .error ∧ (stepResult s).fault = some f ∧ afterStep s = s ∧ step s = .fault f := by
  rw [afterStep, stepResult_of_front_error h]
  exact ⟨report_status .., report_fault .., report_after .., step_of_front_error h⟩

/-- Settles O37: the front ends in the instruction. -/
theorem stepRunsTheDecodedInstruction : Obligations.StepRunsTheDecodedInstruction := by
  intro s i hl hp ha hw hd
  exact step_of_front_execute ((front_dispatch hl hp ha).trans (dispatchWord_execute hw hd))

/-- Settles O40: the front ends at the range check. -/
theorem stepPastTheProgramIsCompleted : Obligations.StepPastTheProgramIsCompleted := by
  intro s hl hp
  have hf : front s = .completed := front_completed hl hp
  rw [afterStep, stepResult_of_front_completed hf]
  exact ⟨report_status .., report_fault .., report_after .., step_of_front_completed hf⟩

/-- Settles O41: the front ends at the alignment check. -/
theorem misalignedFetchFaults : Obligations.MisalignedFetchFaults :=
  fun _ hl hp ha => step_faults (front_misaligned hl hp ha)

/-- Settles O42: the front ends at the zero test. -/
theorem zeroWordHalts : Obligations.ZeroWordHalts := by
  intro s hl hp ha hw
  have hf : front s = .halted := by rw [front_dispatch hl hp ha, hw, dispatchWord_zero]
  rw [afterStep, stepResult_of_front_halted hf]
  exact ⟨report_status .., report_fault .., report_after .., step_of_front_halted hf⟩

/-- Settles O43: the front ends at the decoder's verdict. -/
theorem reservedWordFaults : Obligations.ReservedWordFaults :=
  fun _ hl hp ha hw hd => step_faults ((front_dispatch hl hp ha).trans (dispatchWord_reserved hw hd))

/-! ### A placed word (log 10) -/

/-- The pc of a placed word is aligned and inside instruction memory. -/
theorem placeWord_pc (s : State) (w : Word) :
    u32 (placeWord s w).pc % 4 = 0 ∧ u32 (placeWord s w).pc / 4 < Config.imemWords := by
  by_cases h : u32 s.pc % 4 = 0 ∧ u32 s.pc / 4 < Config.imemWords
  · simpa only [placeWord, if_pos h] using h
  · simp only [placeWord, if_neg h]
    decide

/-- The fetch at a placed word's pc gives the word. -/
theorem iFetch_placeWord (s : State) (w : Word) : iFetch (placeWord s w).imem (placeWord s w).pc = w := by
  obtain ⟨ha, hidx⟩ := placeWord_pc s w
  rw [iFetch_of_lt _ ha (by omega)]
  exact readWord_writeWord_self s.imem (u32 (placeWord s w).pc) w

/-- The front of a step at a placed word dispatches it: the program is loaded and reaches past the pc. -/
theorem front_placeWord (s : State) (w : Word) : front (placeWord s w) = dispatchWord w := by
  have hlen : u32 (placeWord s w).pc / 4 + 1 ≤ (placeWord s w).progLen := Nat.le_max_right ..
  rw [front_dispatch rfl (by omega) (placeWord_pc s w).1, iFetch_placeWord]

/-- Settles O38: the placed word is the one dispatched, and it decodes. -/
theorem placedWordRunsNext : Obligations.PlacedWordRunsNext := by
  intro s nbits w i hw hd
  exact step_of_front_execute ((front_placeWord s _).trans (dispatchWord_execute hw hd))

/-! ### Status, fault and state after (R37, R112, R116, R240) -/

/-- Settles O45: of the three things a step can report, an error is the fault `step` answers, and the others its next
state. -/
theorem stepAndStepResultAgree : Obligations.StepAndStepResultAgree := by
  intro s
  rcases stepResult_cases s with ⟨f, hr, hs⟩ | ⟨x, hx, hr, hs⟩ | ⟨w, i, t, hf, he, hr⟩
  · simp [afterStep, hr, hs]
  · have hne : x ≠ .error := by rcases hx with rfl | rfl <;> decide
    simp [afterStep, hr, hs, hne]
  · have hs : step s = .next t := (step_of_front_execute hf).trans he
    simp [afterStep, hr, hs]

/-- Settles O46: a step that is not Running leaves the state, which is a fixed point of every later step. -/
theorem stoppedMachinesStayStopped : Obligations.StoppedMachinesStayStopped := by
  intro s h k
  have hfix : afterStep^[k] s = s := Function.iterate_fixed (afterStep_of_not_running h) k
  exact ⟨congrArg stepResult hfix, hfix⟩

/-- A dispatched word is the word reported as fetched, whatever becomes of it. -/
theorem fetchedWord_of_front_dispatch {s : State} {w : Word} (h : front s = dispatchWord w) :
    fetchedWord s = some w := by
  rcases dispatchWord_cases w with ⟨hw, hd⟩ | ⟨-, -, hd⟩ | ⟨-, i, -, hd⟩
  · subst hw
    simp only [fetchedWord, h, hd]
  · simp only [fetchedWord, h, hd]
  · simp only [fetchedWord, h, hd]

/-- A word is fetched exactly where the checks before the fetch let the step reach it (R100, R116). -/
theorem fetchedWord_eq_ite (s : State) :
    fetchedWord s =
      if s.loaded = true ∧ u32 s.pc < s.progLen * 4 ∧ u32 s.pc % 4 = 0 then some (iFetch s.imem s.pc) else none := by
  rcases front_cases s with ⟨hl, hf⟩ | ⟨-, hp, hf⟩ | ⟨-, -, ha, hf⟩ | ⟨hl, hp, ha, hf⟩
  · rw [if_neg fun h => absurd (hl.symm.trans h.1) (by decide)]
    simp only [fetchedWord, hf]
  · rw [if_neg fun h => absurd h.2.1 (Nat.not_lt.mpr hp)]
    simp only [fetchedWord, hf]
  · rw [if_neg fun h => ha h.2.2]
    simp only [fetchedWord, hf]
  · rw [if_pos ⟨hl, hp, ha⟩, fetchedWord_of_front_dispatch hf]

/-- Settles O58: every result of a step is a `report`, with a fault exactly when it is an error. -/
theorem stepReportsItsOutputs : Obligations.StepReportsItsOutputs := by
  intro s
  rcases stepResult_cases s with ⟨f, hr, -⟩ | ⟨x, hx, hr, -⟩ | ⟨w, i, t, -, -, hr⟩
  · rw [← fetchedWord_eq_ite, afterStep, hr]
    simp [StepResult.snapshot]
  · have hne : x ≠ .error := by rcases hx with rfl | rfl <;> decide
    rw [← fetchedWord_eq_ite, afterStep, hr]
    simp [StepResult.snapshot, hne]
  · rw [← fetchedWord_eq_ite, afterStep, hr]
    simp [StepResult.snapshot]

end Sys2Proof.Machine
end

section
/-!
PROOF. The machine's invariant (10_state.md R22, R29, R34; 20_memory.md R56, R65): power-on meets it, every step keeps
it, and no pc wraps while it holds.
-/

namespace Sys2Proof.Machine

/-- The write port keeps the invariant: it never writes slot 0. -/
theorem MachineInv.writeReg {s : State} (h : MachineInv s) (d : RegIx) (v : Word) : MachineInv (writeReg s d v) := by
  obtain ⟨hi, hd, hbelow, hfits, hdata, hzero⟩ := h
  simp only [MachineInv, writeReg_imem, writeReg_dmem, writeReg_progLen, writeReg_slot_zero]
  exact ⟨hi, hd, hbelow, hfits, hdata, hzero⟩

/-- The invariant says nothing of the pc. -/
theorem MachineInv.jumpTo {s : State} (h : MachineInv s) (target : Word) : MachineInv (jumpTo s target) := h

/-- A store at an address that passes the checks keeps the invariant: it stays inside data memory. -/
theorem MachineInv.writeData {s : State} (h : MachineInv s) {ea : Int} {a : Nat} (ha : dataAddress ea = .ok a)
    (v : Word) : MachineInv { s with dmem := writeWord s.dmem a v } := by
  obtain ⟨hi, hd, hbelow, hfits, hdata, hzero⟩ := h
  obtain ⟨-, hbound⟩ := dataAddress_bound ha
  exact ⟨hi, writeWord_wf a v hd, hbelow, hfits, writeWord_below v hbound hdata, hzero⟩

/-- Every instruction keeps the invariant. -/
theorem MachineInv.exec {i : Instr} {s t : State} (h : MachineInv s) (he : exec i s = .next t) : MachineInv t := by
  rcases exec_cases he with ⟨d, v, -, rfl, -⟩ | ⟨rt, rs, imm, a, -, ha, rfl⟩ | ⟨target, -, rfl, -⟩ | ⟨a, -, rfl⟩
  · exact (h.writeReg d v).jumpTo _
  · exact (h.writeData ha _).jumpTo _
  · exact h.jumpTo target
  · exact (h.writeReg linkReg _).jumpTo _

/-- Settles O48: a step that answers a next state left the state or executed an instruction. -/
theorem stepKeepsTheInvariant : Obligations.StepKeepsTheInvariant := by
  intro s t h hstep
  rcases step_next_cases hstep with rfl | ⟨w, i, -, he⟩
  · exact h
  · exact h.exec he

/-- An array with nothing listed lists nothing from any bound on. -/
theorem below_nil (n : Nat) : Memory.below n [] := fun _ hc => absurd hc List.not_mem_nil

/-- Nothing is listed in either array after a reset, so the invariant is about empty lists. -/
theorem machineInv_hostReset {s : State} (h : s.progLen ≤ Config.imemWords) : MachineInv (hostReset s) :=
  ⟨reset_memory_wf.1, reset_memory_wf.2, below_nil _, h, below_nil _, rfl⟩

/-- Settles O47: power-on is a reset of itself. -/
theorem resetMeetsTheInvariant : Obligations.ResetMeetsTheInvariant :=
  machineInv_hostReset (s := State.reset) (Nat.zero_le _)

/-- A reset register file reads 0. -/
theorem readReg_hostReset (s : State) (r : RegIx) : readReg (hostReset s) r = 0#32 := by
  simp [readReg, hostReset, State.reset]

/-- Settles O50: the register file holds 32 zeros and both arrays list nothing. -/
theorem resetZeroesTheMachine : Obligations.ResetZeroesTheMachine :=
  ⟨fun s => ⟨readReg_hostReset s, rfl, readWord_nil, readWord_nil, rfl, rfl⟩, rfl⟩

/-- An instruction executes only at a pc inside the program (R102). -/
theorem pc_lt_of_front_execute {s : State} {w : Word} {i : Instr} (h : front s = .execute w i) :
    u32 s.pc < s.progLen * 4 := by
  rcases front_cases s with ⟨-, hf⟩ | ⟨-, -, hf⟩ | ⟨-, hp, -, hf⟩ | ⟨-, hp, -, -⟩
  · exact Front.noConfusion (hf.symm.trans h)
  · exact Front.noConfusion (hf.symm.trans h)
  · exact hp
  · exact hp

/-- Settles O49: an executing pc is inside a program that fits instruction memory, far below 2^31. -/
theorem noPcWrapsWhileExecuting : Obligations.NoPcWrapsWhileExecuting := by
  intro s w i h hf
  obtain ⟨-, -, -, hfits, -, -⟩ := h
  have hin : u32 s.pc < s.progLen * 4 := pc_lt_of_front_execute hf
  have hcap : Config.imemWords ≤ 2 ^ 28 := by decide
  have hpc : u32 s.pc < 2 ^ 31 := by omega
  refine ⟨hpc, ?next, fun imm h0 => ?branch⟩
  case next =>
    rw [u32_eq_toNat, BitVec.toNat_add]
    exact Nat.mod_eq_of_lt (Nat.lt_trans (Nat.add_lt_add_right hpc 4) (by decide))
  case branch => rw [← ofInt_branchTarget, u32_ofInt_branchTarget hpc h0]

end Sys2Proof.Machine
end

section
/-!
PROOF. The host's run and its snapshot (70_reset_and_hazards.md R241 to R246).
-/

namespace Sys2Proof.Machine

/-! ### The run loop (R241, R242) -/

/-- A running step takes one unit of fuel and the loop goes on from the state after it. -/
theorem runLoop_of_running {fuel n : Nat} {s : State} (h : (stepResult s).status = .running) :
    runLoop (fuel + 1) n s = runLoop fuel (n + 1) (afterStep s) := if_pos h

/-- A step that is not Running ends the loop with the step's own outputs. -/
theorem runLoop_of_not_running {fuel n : Nat} {s : State} (h : (stepResult s).status ≠ .running) :
    runLoop (fuel + 1) n s = ⟨(stepResult s).status, (stepResult s).fault, (stepResult s).message, n, s⟩ := by
  have hafter : (stepResult s).after = s := afterStep_of_not_running h
  rw [runLoop]
  simp only [if_neg h, hafter]

/-- While the steps are Running the loop only counts them. -/
theorem runLoop_of_all_running {k : Nat} (fuel n : Nat) {s : State}
    (h : ∀ j < k, (stepResult (afterStep^[j] s)).status = .running) :
    runLoop (fuel + k) n s = runLoop fuel (n + k) (afterStep^[k] s) := by
  induction k generalizing n s with
  | zero => rfl
  | succ k ih =>
    have hrest : ∀ j < k, (stepResult (afterStep^[j] (afterStep s))).status = .running :=
      fun j hj => h (j + 1) (by omega)
    calc runLoop (fuel + k + 1) n s
        = runLoop (fuel + k) (n + 1) (afterStep s) := runLoop_of_running (h 0 (Nat.succ_pos k))
      _ = runLoop fuel (n + 1 + k) (afterStep^[k] (afterStep s)) := ih (n + 1) hrest
      _ = runLoop fuel (n + (k + 1)) (afterStep^[k + 1] s) := by
          rw [Function.iterate_succ_apply, Nat.add_right_comm, Nat.add_assoc]

/-- Settles O54: the loop counts the running steps up to the first that is not, or until the cap leaves no fuel. -/
theorem runStopsAtTheFirstStopOrTheCap : Obligations.RunStopsAtTheFirstStopOrTheCap := by
  refine fun s => ⟨fun k hk hrun hstop => ?stops, fun hrun => ?cap⟩
  case stops =>
    obtain ⟨fuel, hfuel⟩ : ∃ fuel, Config.runCap = fuel + 1 + k := ⟨Config.runCap - 1 - k, by omega⟩
    rw [run, hfuel, runLoop_of_all_running (fuel + 1) 0 hrun, runLoop_of_not_running hstop]
    exact ⟨Nat.zero_add k, rfl, rfl, rfl, rfl⟩
  case cap =>
    have hloop := runLoop_of_all_running (k := Config.runCap) 0 0 (s := s) fun j hj => hrun j (by omega)
    rw [run, ← Nat.zero_add Config.runCap, hloop]
    exact ⟨rfl, ⟨_, rfl⟩, rfl⟩

/-! ### The snapshot (R244, D21) -/

/-- The two's-complement reading of a word, in the words of R12. -/
theorem s32_eq_ite (v : Word) : s32 v = if u32 v < 2 ^ 31 then (u32 v : Int) else (u32 v : Int) - 2 ^ 32 := by
  rw [s32_eq_toInt, BitVec.toInt_eq_toNat_cond, u32_eq_toNat]
  split <;> split <;> omega

/-- Settles O55: each list of the snapshot is made by index over the registers or the words of an array. -/
theorem snapshotShowsSignedRegisters : Obligations.SnapshotShowsSignedRegisters := by
  refine fun s => ⟨fun r => ?regs, ?_, rfl, fun k hk => ?imem, ?_, fun k hk => ?dmem, ?_⟩
  case regs =>
    have hr : r.toNat < 32 := r.isLt
    rw [← s32_eq_ite]
    simp [getState, hr]
  case imem | dmem => simp [getState, hk]
  all_goals simp [getState]

end Sys2Proof.Machine
end

section
/-!
PROOF. The host's load (70_reset_and_hazards.md R235 to R238): a source that loads meets the invariant and executes as
written; one that does not leaves the machine not loaded.
-/

namespace Sys2Proof.Machine

/-- A load that installs has assembled the source, and the program fits. -/
theorem load_installed {src : Text} {after s t : State} {tr : List Translation}
    (h : load src after s = .installed t tr) :
    ∃ a, assemble src = .ok a ∧ a.words.length ≤ Config.imemWords ∧ t = loadWords a.words s := by
  unfold load at h
  split at h
  · simp at h
  · simp at h
  · next a ha =>
    split at h
    · next hfits => exact ⟨a, ha, hfits, by simpa [eq_comm] using (LoadResult.installed.inj h).1⟩
    · simp at h

/-- A load that fails leaves the unspecified state with `loaded` 0. -/
theorem load_failed {src : Text} {after s t : State} {e : LoadError} (h : load src after s = .failed e t) :
    t = failedLoad after := by
  unfold load at h
  split at h
  · simp at h
  · exact (LoadResult.failed.inj h).2.symm
  · split at h
    · simp at h
    · exact (LoadResult.failed.inj h).2.symm

/-- A program that does not fit fails to load (R238; the kind is log 12). -/
theorem load_tooLong {src : Text} {a : Assembly} (after s : State) (ha : assemble src = .ok a)
    (hlong : Config.imemWords < a.words.length) :
    load src after s = .failed (.programTooLong a.words.length) (failedLoad after) := by
  simp only [load, ha, if_neg (Nat.not_le.mpr hlong)]

/-- Settles O53: `failedLoad` sets `loaded` to 0, which the first check of a step finds. -/
theorem failedLoadLeavesTheMachineUnloaded : Obligations.FailedLoadLeavesTheMachineUnloaded := by
  refine ⟨fun src after s t e h => ?_, fun src after s a ha hlong => ⟨_, load_tooLong after s ha hlong⟩⟩
  obtain rfl := load_failed h
  exact ⟨rfl, step_of_front_error (front_notLoaded rfl)⟩

/-! ### A loaded program -/

/-- Installing a program lists nothing past it. -/
theorem installWords_below {m : Memory} {n : Nat} (k : Nat) (ws : List Word) (hn : 4 * (k + ws.length) ≤ n)
    (h : Memory.below n m) : Memory.below n (installWords m k ws) := by
  induction ws generalizing m k with
  | nil => exact h
  | cons w ws ih =>
    rw [List.length_cons] at hn
    exact ih (k + 1) (by omega) (writeWord_below w (by omega) h)

/-- A load of a program that fits meets the invariant. -/
theorem machineInv_loadWords {ws : List Word} (hfits : ws.length ≤ Config.imemWords) (s : State) :
    MachineInv (loadWords ws s) := by
  have hbelow : Memory.below (4 * ws.length) (installWords [] 0 ws) :=
    installWords_below 0 ws (by rw [Nat.zero_add]) (below_nil _)
  exact ⟨installWords_wf 0 ws reset_memory_wf.1, reset_memory_wf.2, hbelow, hfits, below_nil _, rfl⟩

/-- A machine that runs a loaded program dispatches, at byte address 4k, the program's word of index k. -/
theorem front_loadWords {ws : List Word} (hfits : ws.length ≤ Config.imemWords) (s : State) {k : Nat}
    (hk : k < ws.length) : front { loadWords ws s with pc := BitVec.ofNat 32 (4 * k) } = dispatchWord ws[k] := by
  have hcap : Config.imemWords ≤ 2 ^ 28 := by decide
  have hpc : u32 (BitVec.ofNat 32 (4 * k)) = 4 * k := Nat.mod_eq_of_lt (by omega)
  have hword : readWord (installWords [] 0 ws) (4 * k) = ws[k] := by simpa using readWord_installWords_getElem [] 0 hk
  have hfetch : iFetch (installWords [] 0 ws) (BitVec.ofNat 32 (4 * k)) = ws[k] := by
    rw [iFetch_of_lt _ (by omega) (by omega), hpc, hword]
  rw [front_dispatch rfl (by simp only [loadWords]; omega) (by simp only; omega)]
  exact congrArg dispatchWord hfetch

/-- The decoder gives back every instruction from the toolchain's word for it. -/
theorem decode_encode (i : Instr) : decode (encode i) = some i :=
  decodeOfEncodeGivesTheInstruction defaultOpcodeMap (by decide) i

/-- The toolchain's word for a well-formed instruction dispatches to that instruction. -/
theorem dispatchWord_encode {i : Instr} (h : i.wellFormed = true) :
    dispatchWord (encode i) = .execute (encode i) i := by
  have hne : encode i ≠ 0#32 := fun h0 => by
    have hill := (illFormedExactlyWhenEncodedAsHalt i).mpr h0
    exact absurd (hill.symm.trans h) (by decide)
  exact dispatchWord_execute hne (decode_encode i)

/-- Settles O52: the load installs the encodings of the assembled instructions, and each dispatches to its
instruction. -/
theorem loadedSourceExecutesAsWritten : Obligations.LoadedSourceExecutesAsWritten := by
  intro src after s t tr h
  obtain ⟨a, ha, hfits, rfl⟩ := load_installed h
  refine ⟨machineInv_loadWords hfits s, rfl, readReg_hostReset s, readWord_nil, rfl, a, ha, ?len,
    fun k l hl hwf => ?run⟩
  case len => exact List.length_map ..
  case run =>
    have hword : a.words[k]? = some (encode l.2) := by simp [Assembly.words, hl]
    obtain ⟨hk, hget⟩ := List.getElem?_eq_some_iff.mp hword
    rw [front_loadWords hfits s hk, hget, dispatchWord_encode hwf]

end Sys2Proof.Machine
end

section
/-!
PROOF. The toolchain (30_encoding.md R85 to R93): which lines assemble to a jump, and where assembled jumps and branches
go.
-/

namespace Sys2Proof.Machine

/-! ### The instruction each operand form makes (R88) -/

/-- What a step of a form's operands needs to succeed. -/
theorem except_bind_ok {α β : Type} {x : Except AsmStop α} {f : α → Except AsmStop β} {r : β} (h : x >>= f = .ok r) :
    ∃ a, x = .ok a ∧ f a = .ok r := by
  cases x with
  | error e => exact absurd h (by simp [bind, Except.bind])
  | ok a => exact ⟨a, rfl, h⟩

theorem threeRegs_ok {mk : RegIx → RegIx → RegIx → Instr} {ops : List Text} {i : Instr} (h : threeRegs mk ops = .ok i) :
    ∃ rd rs rt, i = mk rd rs rt := by
  unfold threeRegs at h
  split at h
  · obtain ⟨rd, -, h⟩ := except_bind_ok h
    obtain ⟨rs, -, h⟩ := except_bind_ok h
    obtain ⟨rt, -, h⟩ := except_bind_ok h
    exact ⟨rd, rs, rt, (Except.ok.inj h).symm⟩
  · simp at h

theorem shiftForm_ok {ls : Labels} {mk : RegIx → RegIx → Shamt → Instr} {ops : List Text} {i : Instr}
    (h : shiftForm ls mk ops = .ok i) : ∃ rd rt sh, i = mk rd rt sh := by
  unfold shiftForm at h
  split at h
  · obtain ⟨rd, -, h⟩ := except_bind_ok h
    obtain ⟨rt, -, h⟩ := except_bind_ok h
    obtain ⟨sh, -, h⟩ := except_bind_ok h
    exact ⟨rd, rt, sh, (Except.ok.inj h).symm⟩
  · simp at h

theorem jrForm_ok {ops : List Text} {i : Instr} (h : jrForm ops = .ok i) : ∃ rs, i = .jr rs := by
  unfold jrForm at h
  split at h
  · obtain ⟨rs, -, h⟩ := except_bind_ok h
    exact ⟨rs, (Except.ok.inj h).symm⟩
  · simp at h

theorem addiForm_ok {ls : Labels} {ops : List Text} {i : Instr} (h : addiForm ls ops = .ok i) :
    ∃ rt rs imm, i = .addi rt rs imm := by
  unfold addiForm at h
  split at h
  · obtain ⟨rt, -, h⟩ := except_bind_ok h
    obtain ⟨rs, -, h⟩ := except_bind_ok h
    obtain ⟨imm, -, h⟩ := except_bind_ok h
    exact ⟨rt, rs, imm, (Except.ok.inj h).symm⟩
  · simp at h

theorem memoryForm_ok {ls : Labels} {mk : RegIx → RegIx → Imm16 → Instr} {ops : List Text} {i : Instr}
    (h : memoryForm ls mk ops = .ok i) : ∃ rt rs imm, i = mk rt rs imm := by
  unfold memoryForm at h
  split at h
  · obtain ⟨rt, -, h⟩ := except_bind_ok h
    obtain ⟨m, -, h⟩ := except_bind_ok h
    exact ⟨rt, m.1, m.2, (Except.ok.inj h).symm⟩
  · simp at h

theorem branchForm_ok {ls : Labels} {pc : Nat} {mk : RegIx → RegIx → Imm16 → Instr} {ops : List Text} {i : Instr}
    (h : branchForm ls pc mk ops = .ok i) : ∃ rs rt imm, i = mk rs rt imm := by
  unfold branchForm at h
  split at h
  · obtain ⟨rs, -, h⟩ := except_bind_ok h
    obtain ⟨rt, -, h⟩ := except_bind_ok h
    obtain ⟨t, -, h⟩ := except_bind_ok h
    exact ⟨rs, rt, branchOffset pc t, (Except.ok.inj h).symm⟩
  · simp at h

/-! ### Jumps (R88, R91) -/

/-- A jump or branch operand that assembles is a label of the table. -/
theorem targetOf_ok {ls : Labels} {name : Text} {adr : Nat} (h : targetOf ls name = .ok adr) :
    labelAddress ls name = some adr := by
  unfold targetOf at h
  split at h
  · next a ha =>
    split at h
    · simp at h
    · rw [ha, Except.ok.inj h]
  · split at h <;> simp at h

/-- A label that is not made only of digits is a target. -/
theorem targetOf_of_label {ls : Labels} {name : Text} {adr : Nat} (hl : labelAddress ls name = some adr)
    (hd : name.all Char.isDigit = false) : targetOf ls name = .ok adr := by
  simp [targetOf, hl, isDecimal, hd]

/-- Operands that assemble as a jump's are one label, whose byte address is the field. -/
theorem jumpForm_ok {ls : Labels} {mk : Addr26 → Instr} {ops : List Text} {i : Instr} (h : jumpForm ls mk ops = .ok i) :
    ∃ name adr, ops = [name] ∧ labelAddress ls name = some adr ∧ i = mk (BitVec.ofNat 26 adr) := by
  unfold jumpForm at h
  split at h
  · next name =>
    obtain ⟨adr, ht, h⟩ := except_bind_ok h
    exact ⟨name, adr, rfl, targetOf_ok ht, (Except.ok.inj h).symm⟩
  · simp at h

/-- One label as the operand of a jump assembles. -/
theorem jumpForm_of_label {ls : Labels} (mk : Addr26 → Instr) {name : Text} {adr : Nat}
    (h : targetOf ls name = .ok adr) : jumpForm ls mk [name] = .ok (mk (BitVec.ofNat 26 adr)) := by
  simp [jumpForm, h, bind, Except.bind, jumpField]

/-- Settles O59: none of the mnemonics tested before it is `j` or `jal`. -/
theorem jumpToALabelAssembles : Obligations.JumpToALabelAssembles := by
  intro ls pc text mnemonic name adr htok hl hd
  have htarget : targetOf ls name = .ok adr := targetOf_of_label hl hd
  refine ⟨fun hm => ?_, fun hm => ?_⟩
  · rw [← jumpForm_of_label .j htarget, assembleOne, htok]
    simp only [hm]
    rfl
  · rw [← jumpForm_of_label .jal htarget, assembleOne, htok]
    simp only [hm]
    rfl

/-- One test of the table of R88: the mnemonic is that row's, or a later row's. -/
theorem ok_of_ite {c : Bool} {x y : Except AsmStop Instr} {i : Instr} (h : (if c then x else y) = .ok i) :
    x = .ok i ∨ y = .ok i := by
  cases c
  · exact .inr h
  · exact .inl h

/-- A line that assembles to a jump is a mnemonic and the operands of that jump: every other row of R88's table makes
another instruction. -/
theorem jumpForm_of_assembleOne {ls : Labels} {pc : Nat} {text : Text} {i : Instr} {a : Addr26}
    (h : assembleOne ls pc text = .ok i) (hj : i = .j a ∨ i = .jal a) :
    ∃ m ops, tokens text = m :: ops ∧ (jumpForm ls .j ops = .ok i ∨ jumpForm ls .jal ops = .ok i) := by
  unfold assembleOne at h
  split at h
  · simp at h
  · next m ops htok =>
    refine ⟨m, ops, htok, ?_⟩
    iterate 5
      rcases ok_of_ite h with h | h
      · obtain ⟨_, _, _, rfl⟩ := threeRegs_ok h
        simp at hj
    iterate 2
      rcases ok_of_ite h with h | h
      · obtain ⟨_, _, _, rfl⟩ := shiftForm_ok h
        simp at hj
    rcases ok_of_ite h with h | h
    · obtain ⟨_, rfl⟩ := jrForm_ok h
      simp at hj
    rcases ok_of_ite h with h | h
    · obtain ⟨_, _, _, rfl⟩ := addiForm_ok h
      simp at hj
    iterate 2
      rcases ok_of_ite h with h | h
      · obtain ⟨_, _, _, rfl⟩ := memoryForm_ok h
        simp at hj
    iterate 2
      rcases ok_of_ite h with h | h
      · obtain ⟨_, _, _, rfl⟩ := branchForm_ok h
        simp at hj
    rcases ok_of_ite h with h | h
    · exact .inl h
    rcases ok_of_ite h with h | h
    · exact .inr h
    simp at h

/-- From the first region, a jump whose field is a byte address below 2^26 goes to four times that address (C2). -/
theorem u32_jumpTarget_label {pc : Word} {adr : Nat} (hpc : u32 pc < 2 ^ 28) (hadr : adr < 2 ^ 26) :
    u32 (jumpTarget pc (BitVec.ofNat 26 adr)) = 4 * adr := by
  have hfield : (BitVec.ofNat 26 adr).toNat = adr := Nat.mod_eq_of_lt hadr
  rw [u32_jumpTarget, hfield]
  omega

/-- Settles O56: the line is a jump's, its operand a label of the table, and both jumps set the pc to the jump
target. -/
theorem assembledJumpGoesToFourTimesTheLabel : Obligations.AssembledJumpGoesToFourTimesTheLabel := by
  intro ls pc text i a h hj
  obtain ⟨m, ops, htok, hform⟩ := jumpForm_of_assembleOne h hj
  rcases hform with hform | hform
  all_goals
    obtain ⟨name, adr, rfl, hl, rfl⟩ := jumpForm_ok hform
    obtain rfl : BitVec.ofNat 26 adr = a := by simpa using hj
    exact ⟨m, name, adr, htok, hl, rfl, fun s hpc hadr => ⟨_, rfl, u32_jumpTarget_label hpc hadr⟩⟩

/-! ### Branches (R90) -/

/-- The offset of a label in reach is not truncated: four times it, from the instruction after the branch, is the
label. -/
theorem branchTarget_branchOffset {pc : Word} {target : Nat} (hpc : u32 pc % 4 = 0) (ht : target % 4 = 0)
    (hlo : -131072 ≤ (target : Int) - ((u32 pc : Int) + 4)) (hhi : (target : Int) - ((u32 pc : Int) + 4) ≤ 131068) :
    branchTarget pc (branchOffset (u32 pc) target) = target := by
  have hfits : (branchOffset (u32 pc) target).toInt = ((target : Int) - ((u32 pc : Int) + 4)) / 4 := by
    rw [branchOffset, BitVec.toInt_ofInt]
    exact Int.bmod_eq_of_le (by omega) (by omega)
  rw [branchTarget_eq_toInt, hfits]
  omega

/-- Settles O57: the branch target is the label, which is not below 0, so a taken branch goes there. -/
theorem assembledBranchReachesItsLabel : Obligations.AssembledBranchReachesItsLabel := by
  intro pc target hpc4 ht4 hpc _ hlo hhi s rs rt hs
  subst hs
  have htarget := branchTarget_branchOffset hpc4 ht4 hlo hhi
  obtain ⟨t, ht, -, htpc⟩ := branchWhen_true_jumps (s := s) hpc (htarget ▸ Int.natCast_nonneg target)
  have hreach : u32 t.pc = target := by exact_mod_cast htpc.trans htarget
  refine ⟨fun heq => ⟨t, ?_, hreach⟩, fun hne => ⟨t, ?_, hreach⟩⟩
  · rw [exec_beq, decide_eq_true heq, ht]
  · rw [exec_bne, decide_eq_false hne, Bool.not_false, ht]

end Sys2Proof.Machine
end
